-- ==== Sys2Proof/Word.lean ====
section
/-! DEFINITION. The word types of the engine: bytes, addresses, and the operand widths of an instruction. -/

namespace Sys2Proof

/-- An 8-bit value: a register, a timer, a byte of memory (spec R11 `u8`, R13, R37). -/
abbrev Byte := BitVec 8

/-- A 16-bit value: `pc`, `I`, a stacked return address, an instruction word (spec R17, R24, R26, R56). -/
abbrev Word := BitVec 16

/-- A 12-bit address operand `nnn` (spec R54, R58). -/
abbrev Addr12 := BitVec 12

/-- A register number, 0x0 to 0xF (spec R13, R54). -/
abbrev Reg := Fin 16

/-- The register that doubles as the carry, borrow, shift and collision flag (spec R15). -/
abbrev VF : Reg := 15

end Sys2Proof
end

