-- ==== Sys2Proof/Config.lean ====
section
/-! DEFINITION. What is fixed for one engine (sizes, bases, the quirk bits) and the free input of random bytes. -/

namespace Sys2Proof

/-- The two construction-time configuration bits (spec R9, R10, R23). -/
structure Quirks where
  /-- `use_y_in_shift`: 8XY6 and 8XYE shift V[y] instead of V[x] (spec R76, R77). -/
  useYInShift : Bool
  /-- `use_vx_for_jump_offset`: BNNN adds V[x] instead of V[0] (spec R89). -/
  useVxForJumpOffset : Bool
  deriving DecidableEq, Repr

namespace Config

/-- `MEM_SIZE`: bytes of memory, addresses 0x000 to 0xFFF (spec R6, R37). -/
abbrev memSize : Nat := 4096

/-- `PROG_BASE`: load address and reset pc (spec R6, R38, R127). -/
abbrev progBase : Nat := 0x200

/-- `FONT_BASE`: address of the font table (spec R6, R126). -/
abbrev fontBase : Nat := 0x050

/-- `FONT_SIZE`: 16 sprites of 5 bytes (spec R6, R126). -/
abbrev fontSize : Nat := 80

/-- `DISP_W`: columns of the display (spec R6, R29). -/
abbrev dispW : Nat := 64

/-- `DISP_H`: rows of the display (spec R6, R29). -/
abbrev dispH : Nat := 32

/-- Cells of the display (spec R6, R29). -/
abbrev dispCells : Nat := 2048

/-- `RAND`: the random-byte input stream (spec R7, R79, R121). A FREE VALUE: byte number `k` of the stream is
`rand k`, and nothing constrains it; the uniformity the source mentions is not assumed (spec D25). DESIGN CHOICE, safe (log 7). -/
opaque rand : Nat → Byte

end Config

end Sys2Proof
end

