-- ==== Sys2Proof/Syntax.lean ====
section
/-! DEFINITION. The instructions: one constructor per row of spec/opcode_table.json, in the table's order. -/

namespace Sys2Proof

/-- The 28 instructions of spec R60, with the operands of their formats (spec R57, R58). Every field of a word
that the word's pattern leaves open is an operand here, also where one quirk setting ignores it (spec R64). -/
inductive Instr where
  /-- 00E0 `CLS` (spec R91). -/
  | cls
  /-- 00EE `RET` (spec R83). -/
  | ret
  /-- 1NNN `JP nnn` (spec R81). -/
  | jp (nnn : Addr12)
  /-- 2NNN `CALL nnn` (spec R82). -/
  | call (nnn : Addr12)
  /-- 3XNN `SE Vx, nn` (spec R84). -/
  | seImm (x : Reg) (nn : Byte)
  /-- 4XNN `SNE Vx, nn` (spec R85). -/
  | sneImm (x : Reg) (nn : Byte)
  /-- 5XY0 `SE Vx, Vy` (spec R86). -/
  | seReg (x y : Reg)
  /-- 6XNN `LD Vx, nn` (spec R67). -/
  | ldImm (x : Reg) (nn : Byte)
  /-- 7XNN `ADD Vx, nn` (spec R68). -/
  | addImm (x : Reg) (nn : Byte)
  /-- 8XY0 `LD Vx, Vy` (spec R69). -/
  | ldReg (x y : Reg)
  /-- 8XY1 `OR Vx, Vy` (spec R70). -/
  | orReg (x y : Reg)
  /-- 8XY2 `AND Vx, Vy` (spec R71). -/
  | andReg (x y : Reg)
  /-- 8XY3 `XOR Vx, Vy` (spec R72). -/
  | xorReg (x y : Reg)
  /-- 8XY4 `ADD Vx, Vy` (spec R73). -/
  | addReg (x y : Reg)
  /-- 8XY5 `SUB Vx, Vy` (spec R74). -/
  | sub (x y : Reg)
  /-- 8XY6 `SHR Vx, Vy` (spec R76). -/
  | shr (x y : Reg)
  /-- 8XY7 `SUBN Vx, Vy` (spec R75). -/
  | subn (x y : Reg)
  /-- 8XYE `SHL Vx, Vy` (spec R77). -/
  | shl (x y : Reg)
  /-- 9XY0 `SNE Vx, Vy` (spec R87). -/
  | sneReg (x y : Reg)
  /-- ANNN `LD I, nnn` (spec R78). -/
  | ldI (nnn : Addr12)
  /-- BNNN `JP V0, nnn` (spec R89). -/
  | jpV0 (nnn : Addr12)
  /-- CXNN `RND Vx, nn` (spec R79). -/
  | rnd (x : Reg) (nn : Byte)
  /-- DXYN `DRW Vx, Vy, n` (spec R92); `n` is a count of rows (spec R58). DESIGN CHOICE, safe (log 14). -/
  | drw (x y : Reg) (n : Nat)
  /-- EX9E `SKP Vx` (spec R97). -/
  | skp (x : Reg)
  /-- EXA1 `SKNP Vx` (spec R98). -/
  | sknp (x : Reg)
  /-- FX07 `LD Vx, DT` (spec R99). -/
  | ldVxDt (x : Reg)
  /-- FX15 `LD DT, Vx` (spec R100). -/
  | ldDtVx (x : Reg)
  /-- FX18 `LD ST, Vx` (spec R101). -/
  | ldStVx (x : Reg)
  deriving DecidableEq, Repr

end Sys2Proof
end

