-- ==== Sys2Proof/WellFormed.lean ====
section
/-! DEFINITION. Which instructions are well formed: those an instruction word can hold. -/

namespace Sys2Proof

/-- Every operand but one has a type of exactly its field's width (spec R54). The sprite height of DRW is a
count, and its field holds 0 to 15 (spec R58, R92). -/
def Instr.wellFormed : Instr → Bool
  | .drw _ _ n => n < 16
  | .cls => true
  | .ret => true
  | .jp _ => true
  | .call _ => true
  | .seImm _ _ => true
  | .sneImm _ _ => true
  | .seReg _ _ => true
  | .ldImm _ _ => true
  | .addImm _ _ => true
  | .ldReg _ _ => true
  | .orReg _ _ => true
  | .andReg _ _ => true
  | .xorReg _ _ => true
  | .addReg _ _ => true
  | .sub _ _ => true
  | .shr _ _ => true
  | .subn _ _ => true
  | .shl _ _ => true
  | .sneReg _ _ => true
  | .ldI _ => true
  | .jpV0 _ => true
  | .rnd _ _ => true
  | .skp _ => true
  | .sknp _ => true
  | .ldVxDt _ => true
  | .ldDtVx _ => true
  | .ldStVx _ => true

end Sys2Proof
end

