-- ==== Sys2Proof/Decode.lean ====
section
/-! DEFINITION. The decoder, total on any bytes and rejecting by name, and the encoder. -/

namespace Sys2Proof

/-- The decoded instruction: the six fields of a word (spec R54; `90_conflicts.md` C4). -/
structure Fields where
  /-- W[15:12]. -/
  opcode : BitVec 4
  /-- W[11:8]. -/
  x : Reg
  /-- W[7:4]. -/
  y : Reg
  /-- W[3:0]. -/
  n : BitVec 4
  /-- W[7:0]. -/
  nn : Byte
  /-- W[11:0]. -/
  nnn : Addr12
  deriving DecidableEq, Repr

/-- `decode(W)` of spec R54: it slices the word, never fails and checks nothing (spec R55). -/
def fieldsOf (w : Word) : Fields where
  opcode := w.extractLsb' 12 4
  x := (w.extractLsb' 8 4).toFin
  y := (w.extractLsb' 4 4).toFin
  n := w.extractLsb' 0 4
  nn := w.extractLsb' 0 8
  nnn := w.extractLsb' 0 12

/-- Why bytes are no instruction: one name per row of the table of spec R62, and one for too few bytes. -/
inductive DecodeError where
  /-- 0NNN other than 00E0 and 00EE. -/
  | illegal0
  /-- 5XYN with N other than 0. -/
  | illegal5
  /-- 8XYN with N one of 8, 9, A, B, C, D, F. -/
  | illegal8
  /-- 9XYN with N other than 0. -/
  | illegal9
  /-- EXNN with NN other than 9E and A1. -/
  | illegalE
  /-- FXNN with NN other than 07, 15 and 18. -/
  | illegalF
  /-- Fewer than the two bytes of an instruction (spec R56). -/
  | tooShort
  deriving DecidableEq, Repr

/-- Family 0: only the two whole words 00E0 and 00EE are instructions (spec R59). -/
def decodeFamily0 (w : Word) : Except DecodeError Instr :=
  if w = 0x00E0 then .ok .cls
  else if w = 0x00EE then .ok .ret
  else .error .illegal0

/-- Family 8: the low nibble selects the operation (spec R59). -/
def decodeFamily8 (f : Fields) : Except DecodeError Instr :=
  match f.n with
  | 0x0#4 => .ok (.ldReg f.x f.y)
  | 0x1#4 => .ok (.orReg f.x f.y)
  | 0x2#4 => .ok (.andReg f.x f.y)
  | 0x3#4 => .ok (.xorReg f.x f.y)
  | 0x4#4 => .ok (.addReg f.x f.y)
  | 0x5#4 => .ok (.sub f.x f.y)
  | 0x6#4 => .ok (.shr f.x f.y)
  | 0x7#4 => .ok (.subn f.x f.y)
  | 0xE#4 => .ok (.shl f.x f.y)
  | _ => .error .illegal8

/-- Family E: the low byte selects the operation (spec R59). -/
def decodeFamilyE (f : Fields) : Except DecodeError Instr :=
  if f.nn = 0x9E then .ok (.skp f.x)
  else if f.nn = 0xA1 then .ok (.sknp f.x)
  else .error .illegalE

/-- Family F: the low byte selects the operation (spec R59). -/
def decodeFamilyF (f : Fields) : Except DecodeError Instr :=
  if f.nn = 0x07 then .ok (.ldVxDt f.x)
  else if f.nn = 0x15 then .ok (.ldDtVx f.x)
  else if f.nn = 0x18 then .ok (.ldStVx f.x)
  else .error .illegalF

/-- The dispatch of spec R59 from the fields of a word to the instruction, or the row of spec R62 that makes the
word illegal. The opcode values are the spec's (R59, R61), most of them from general knowledge.
PRESUMED, unsafe if one is wrong (log 9); which words are illegal is UNVERIFIED and safe (log 10). -/
def decodeWord (w : Word) : Except DecodeError Instr :=
  let f := fieldsOf w
  match f.opcode with
  | 0x0#4 => decodeFamily0 w
  | 0x1#4 => .ok (.jp f.nnn)
  | 0x2#4 => .ok (.call f.nnn)
  | 0x3#4 => .ok (.seImm f.x f.nn)
  | 0x4#4 => .ok (.sneImm f.x f.nn)
  | 0x5#4 => if f.n = 0 then .ok (.seReg f.x f.y) else .error .illegal5
  | 0x6#4 => .ok (.ldImm f.x f.nn)
  | 0x7#4 => .ok (.addImm f.x f.nn)
  | 0x8#4 => decodeFamily8 f
  | 0x9#4 => if f.n = 0 then .ok (.sneReg f.x f.y) else .error .illegal9
  | 0xA#4 => .ok (.ldI f.nnn)
  | 0xB#4 => .ok (.jpV0 f.nnn)
  | 0xC#4 => .ok (.rnd f.x f.nn)
  | 0xD#4 => .ok (.drw f.x f.y f.n.toNat)
  | 0xE#4 => decodeFamilyE f
  -- 0xF, the one value of a nibble that is left
  | _ => decodeFamilyF f

/-- The word of two bytes in the order they stand in memory: the first is the high byte (spec R40, R53). -/
def wordOfBytes (hi lo : Byte) : Word := hi ++ lo

/-- The high byte of a word, stored first (spec R40). -/
def highByte (w : Word) : Byte := w.extractLsb' 8 8

/-- The low byte of a word, stored second (spec R40). -/
def lowByte (w : Word) : Byte := w.extractLsb' 0 8

/-- Decodes the instruction at the head of a list of bytes and gives the bytes after it (spec R56: two bytes). -/
def decodeBytes : List Byte → Except DecodeError (Instr × List Byte)
  | hi :: lo :: rest =>
    match decodeWord (wordOfBytes hi lo) with
    | .ok i => .ok (i, rest)
    | .error e => .error e
  | _ => .error .tooShort

/-- The word the host numbers as the opcode table does: `nbits` bits of `w`, every higher bit 0. -/
def tableWord (nbits w : Nat) : Word := BitVec.ofNat 16 (w % 2 ^ nbits)

/-- The instruction the decoder reads from a row of the opcode table, its word laid out as memory holds it. -/
def decodeTableWord (nbits w : Nat) : Option Instr :=
  match decodeBytes [highByte (tableWord nbits w), lowByte (tableWord nbits w)] with
  | .ok (i, _) => some i
  | .error _ => none

/-- Format NNN: opcode, 12-bit address (spec R57). -/
def formatNNN (op : BitVec 4) (nnn : Addr12) : Word := op ++ nnn

/-- Format XNN: opcode, register, 8-bit immediate (spec R57). -/
def formatXNN (op : BitVec 4) (x : Reg) (nn : Byte) : Word := op ++ (BitVec.ofFin (w := 4) x ++ nn)

/-- Formats XY and XYN: opcode, two registers, the last nibble fixed or the sprite height (spec R57). -/
def formatXYN (op : BitVec 4) (x y : Reg) (n : BitVec 4) : Word :=
  op ++ (BitVec.ofFin (w := 4) x ++ (BitVec.ofFin (w := 4) y ++ n))

/-- The word of an instruction, from the patterns of spec/opcode_table.json (spec R57, R59). -/
def encode : Instr → Word
  | .cls => 0x00E0
  | .ret => 0x00EE
  | .jp nnn => formatNNN 0x1 nnn
  | .call nnn => formatNNN 0x2 nnn
  | .seImm x nn => formatXNN 0x3 x nn
  | .sneImm x nn => formatXNN 0x4 x nn
  | .seReg x y => formatXYN 0x5 x y 0x0
  | .ldImm x nn => formatXNN 0x6 x nn
  | .addImm x nn => formatXNN 0x7 x nn
  | .ldReg x y => formatXYN 0x8 x y 0x0
  | .orReg x y => formatXYN 0x8 x y 0x1
  | .andReg x y => formatXYN 0x8 x y 0x2
  | .xorReg x y => formatXYN 0x8 x y 0x3
  | .addReg x y => formatXYN 0x8 x y 0x4
  | .sub x y => formatXYN 0x8 x y 0x5
  | .shr x y => formatXYN 0x8 x y 0x6
  | .subn x y => formatXYN 0x8 x y 0x7
  | .shl x y => formatXYN 0x8 x y 0xE
  | .sneReg x y => formatXYN 0x9 x y 0x0
  | .ldI nnn => formatNNN 0xA nnn
  | .jpV0 nnn => formatNNN 0xB nnn
  | .rnd x nn => formatXNN 0xC x nn
  | .drw x y n => formatXYN 0xD x y (BitVec.ofNat 4 n)
  | .skp x => formatXNN 0xE x 0x9E
  | .sknp x => formatXNN 0xE x 0xA1
  | .ldVxDt x => formatXNN 0xF x 0x07
  | .ldDtVx x => formatXNN 0xF x 0x15
  | .ldStVx x => formatXNN 0xF x 0x18

end Sys2Proof
end

