-- ==== Sys2Proof/Machine/State.lean ====
section
/-! DEFINITION. The state of the engine as plain data, the fatal errors, the reasons a step stops, and reset. -/

namespace Sys2Proof.Machine

open Sys2Proof

/-- The fatal errors with the information each records (spec R103). -/
inductive FatalError where
  /-- Code 1: a fetch or DRW addressed memory outside [0, 4096); `addr` is the first address that failed, an
  exact integer. -/
  | outOfBounds (addr : Nat)
  /-- Code 2: a RET, at address `a`, with an empty call stack. -/
  | stackUnderflow (a : Word)
  /-- Code 3: the word `w` at address `a` is illegal (spec R62). -/
  | illegalInstruction (a : Word) (w : Word)
  /-- Code 4: `load` was given `count` bytes, more than fit from 0x200 onward. -/
  | loadTooLarge (count : Nat)
  /-- Code 5: a CALL, at address `a`, with a full call stack. -/
  | stackOverflow (a : Word)
  deriving DecidableEq, Repr

/-- The status field: running, or holding the fatal error that ended a step (spec R35, R104). -/
inductive Status where
  /-- No step has raised a fatal error. -/
  | running
  /-- A step raised `e`; sticky (spec R104). -/
  | faulted (e : FatalError)
  deriving DecidableEq, Repr

/-- Why the machine stops. -/
inductive Fault where
  /-- Raised by `step` alone, when the status is already Faulted: no step is admitted from a faulted state (spec
  R104, R110). It carries the recorded error. Safe: the machine stops where a host might repair and go on. -/
  | stepWhileFaulted (e : FatalError)
  deriving DecidableEq, Repr

/-- Why an operation is refused. -/
inductive Refusal where
  /-- An instruction with no meaning yet, by its mnemonic. Raised by no arm of `exec`. Safe. -/
  | notModelled (mnemonic : String)
  /-- Raised by the host's schedule alone (`hostRun`), when it issues `load` after a step or after a load that
  succeeded: the model admits `load` once and only before the first step (spec R51, R117). Safe. -/
  | loadNotAdmitted
  deriving DecidableEq, Repr

/-- The complete state of the engine (spec R36), and the position in the random input stream. -/
structure State where
  /-- Memory: the cells that differ from `Memory.unlisted`, addresses strictly rising (spec R37). -/
  mem : List Host.Cell
  /-- The general registers V[0x0] to V[0xF], one uniform array (spec R13). -/
  v : Vector Byte 16
  /-- The index register I (spec R24). -/
  i : Word
  /-- The program counter (spec R17). -/
  pc : Word
  /-- The call stack, its top first (spec R26). DESIGN CHOICE, safe (log 17). -/
  stack : List Word
  /-- The delay timer DT (spec R25). -/
  dt : Byte
  /-- The sound timer ST (spec R25). -/
  st : Byte
  /-- The display, 2048 one-bit cells, cell (x, y) at bit x + 64*y, 1 = lit (spec R6, R29, R116).
  DESIGN CHOICE, safe (log 16). -/
  disp : BitVec 2048
  /-- The pressed-key set, bit k set when key k is held (spec R30). -/
  keys : BitVec 16
  /-- The two quirk bits, fixed at construction (spec R9, R36). -/
  quirks : Quirks
  /-- `STACK_CAPACITY`, fixed at construction; `none` = unbounded (spec R26). -/
  stackCapacity : Option Nat
  /-- Running, or the recorded fatal error (spec R35). -/
  status : Status
  /-- The model's own: how many bytes of the random input have been consumed. DESIGN CHOICE, safe (log 7). -/
  randCount : Nat
  deriving DecidableEq, Repr

/-- What one operation of the engine answers. -/
abbrev Result := Host.Outcome State Fault Refusal

/-- The engine as constructed, before `load` (spec R36, R125): pc 0x200, an empty stack and status Running are the
spec's; the other values are the model's: DESIGN CHOICE, unsafe (logs 3, 4, 5 and 8), with the font PRESUMED, unsafe (log 6).
The random position is the model's own field (log 7). `construct` in Machine/HostInterface.lean takes every one
of those as a parameter, as spec R36 asks. -/
def State.reset : State where
  mem := []
  v := Vector.replicate 16 0
  i := 0
  pc := 0x200
  stack := []
  dt := 0
  st := 0
  disp := 0
  keys := 0
  quirks := ⟨false, false⟩
  stackCapacity := none
  status := .running
  randCount := 0

end Sys2Proof.Machine
end

