-- ==== Sys2Proof/Machine/Ops.lean ====
section
/-! DEFINITION. The named operations over memory, registers, the call stack and the display, fetching an
instruction, and raising a fatal error (the engine's one exception). -/

namespace Sys2Proof.Machine

open Sys2Proof

/-! ## Memory (spec 20_memory) -/

/-- `FONT`: the 80 font bytes, sprite d in bytes 5d to 5d + 4; the customary table of spec R126.
PRESUMED, unsafe (log 6). -/
def fontTable : List Byte :=
  [0xF0, 0x90, 0x90, 0x90, 0xF0, 0x20, 0x60, 0x20, 0x20, 0x70] ++
  [0xF0, 0x10, 0xF0, 0x80, 0xF0, 0xF0, 0x10, 0xF0, 0x10, 0xF0] ++
  [0x90, 0x90, 0xF0, 0x10, 0x10, 0xF0, 0x80, 0xF0, 0x10, 0xF0] ++
  [0xF0, 0x80, 0xF0, 0x90, 0xF0, 0xF0, 0x10, 0x20, 0x40, 0x40] ++
  [0xF0, 0x90, 0xF0, 0x90, 0xF0, 0xF0, 0x90, 0xF0, 0x10, 0xF0] ++
  [0xF0, 0x90, 0xF0, 0x90, 0x90, 0xE0, 0x90, 0xE0, 0x90, 0xE0] ++
  [0xF0, 0x80, 0x80, 0x80, 0xF0, 0xE0, 0x90, 0x90, 0x90, 0xE0] ++
  [0xF0, 0x80, 0xF0, 0x80, 0xF0, 0xF0, 0x80, 0xF0, 0x80, 0x80]

/-- Font byte `k`, `k` below 80 (spec R126). -/
def fontByte (k : Nat) : Byte := fontTable.getD k 0

/-- What an address that memory does not list reads as: the font at 0x050 to 0x09F (spec R126; PRESUMED,
unsafe, log 6), 0x00 elsewhere (`RESET_MEM`, which the spec leaves open; DESIGN CHOICE, unsafe, log 5). -/
def Memory.unlisted (a : Nat) : Byte :=
  if Config.fontBase ≤ a ∧ a < Config.fontBase + Config.fontSize then fontByte (a - Config.fontBase) else 0

/-- The byte at address `a` (spec R37); a read has no side effect (spec R47). -/
def Memory.byte : List Host.Cell → Nat → Byte
  | [], a => Memory.unlisted a
  | (b, v) :: rest, a => if a = b then v else Memory.byte rest a

/-- Puts a cell in its place of the list, or takes it out when it holds what an unlisted address reads as. -/
def Memory.cell (a : Nat) (v : Byte) (rest : List Host.Cell) : List Host.Cell :=
  if v = Memory.unlisted a then rest else (a, v) :: rest

/-- `MemWrite` on the sorted list, for any address. -/
def Memory.insert (a : Nat) (v : Byte) : List Host.Cell → List Host.Cell
  | [] => Memory.cell a v []
  | (b, u) :: rest =>
    if a < b then Memory.cell a v ((b, u) :: rest)
    else if a = b then Memory.cell a v rest
    else (b, u) :: Memory.insert a v rest

/-- `MemWrite(a, 1, v)` for `a` below 4096 (spec R46). No byte exists above, and no operation of the
engine calls it there. DESIGN CHOICE, safe (log 15). -/
def Memory.write (m : List Host.Cell) (a : Nat) (v : Byte) : List Host.Cell :=
  if a < Config.memSize then Memory.insert a v m else m

/-- The addresses of the list rise strictly from `lo` on, lie inside memory, and no cell holds what its address
reads as when unlisted. -/
def Memory.wfFrom (lo : Nat) : List Host.Cell → Bool
  | [] => true
  | (a, v) :: rest =>
    decide (lo ≤ a) && decide (a < Config.memSize) && decide (v ≠ Memory.unlisted a) && Memory.wfFrom (a + 1) rest

/-- The canonical form of memory: equal memories are equal lists. -/
def Memory.wf (m : List Host.Cell) : Bool := Memory.wfFrom 0 m

/-- `MemRead(a, 1)`: the byte at `a`, or OutOfBounds(a) (spec R43). `a` is an exact integer (spec R45). -/
def memRead (s : State) (a : Nat) : Except FatalError Byte :=
  if a < Config.memSize then .ok (Memory.byte s.mem a) else .error (.outOfBounds a)

/-! ## Registers and the other fields (spec 10_state) -/

/-- `V[r]` (spec R13). -/
def State.V (s : State) (r : Reg) : Byte := s.v[r]

/-- `V[r] <- b` (spec R13). -/
def State.setV (s : State) (r : Reg) (b : Byte) : State := { s with v := s.v.set r b }

/-- `I <- w` (spec R24). -/
def State.setI (s : State) (w : Word) : State := { s with i := w }

/-- `pc <- w` (spec R17). -/
def State.setPc (s : State) (w : Word) : State := { s with pc := w }

/-- Replaces the call stack (spec R26). -/
def State.setStack (s : State) (l : List Word) : State := { s with stack := l }

/-- `DT <- b` (spec R25). -/
def State.setDt (s : State) (b : Byte) : State := { s with dt := b }

/-- `ST <- b` (spec R25). -/
def State.setSt (s : State) (b : Byte) : State := { s with st := b }

/-- Replaces the display (spec R29). -/
def State.setDisp (s : State) (d : BitVec 2048) : State := { s with disp := d }

/-- Replaces the pressed-key set (spec R30). -/
def State.setKeys (s : State) (k : BitVec 16) : State := { s with keys := k }

/-- Sets the status (spec R35). -/
def State.setStatus (s : State) (st : Status) : State := { s with status := st }

/-- Replaces memory; no instruction does (spec R41). -/
def State.setMem (s : State) (m : List Host.Cell) : State := { s with mem := m }

/-- Moves to the next byte of the random input (spec R121; log 7). -/
def State.nextRand (s : State) : State := { s with randCount := s.randCount + 1 }

/-- `rand8()`: the fresh byte of the random input (spec R79, R121). -/
def rand8 (s : State) : Byte := Config.rand s.randCount

/-- `Disp[k]` (spec R29); no cell lies at or above 2048. -/
def State.cell (s : State) (k : Nat) : Bool := s.disp.getLsbD k

/-- `Disp[k] <- b` (spec R29): the cell is toggled unless it holds `b` already. -/
def State.setCell (s : State) (k : Nat) (b : Bool) : State :=
  s.setDisp (if s.disp.getLsbD k = b then s.disp else s.disp ^^^ BitVec.twoPow 2048 k)

/-- The pc advance of a fetch and of a taken skip, modulo 2^16 (spec R17, R20). -/
def State.advance (s : State) : State := s.setPc (s.pc + 2)

/-- `a`, the fetch address, seen from the execute phase, where `pc = a + 2` (spec R18).
DEDUCED, safe (log 2). -/
def State.fetchAddr (s : State) : Word := s.pc - 2

/-! ## The call stack (spec R26 to R28) -/

/-- The stack already holds `STACK_CAPACITY` entries or more (spec R27; DESIGN CHOICE, safe, log 19).
The capacity at reset is a DESIGN CHOICE, unsafe (log 3). -/
def State.stackFull (s : State) : Bool :=
  match s.stackCapacity with
  | none => false
  | some c => decide (c ≤ s.stack.length)

/-- `push(v)`: StackOverflow with no state change on a full stack, else `v` on the top (spec R27). -/
def push (s : State) (v : Word) : Except FatalError State :=
  if s.stackFull then .error (.stackOverflow s.fetchAddr) else .ok (s.setStack (v :: s.stack))

/-- `pop()`: StackUnderflow on an empty stack, else the top value and the state without it (spec R28). -/
def pop (s : State) : Except FatalError (Word × State) :=
  match s.stack with
  | [] => .error (.stackUnderflow s.fetchAddr)
  | v :: rest => .ok (v, s.setStack rest)

/-! ## Fatal errors (spec 60_exceptions) -/

/-- TAKING AN EXCEPTION, the one operation of every instruction and of the fetch: `status <- Faulted(e)` and no
other change (spec R102, R104, R105, R109). No pc or status is saved and no handler is entered: control goes to
the host, and the record is the status itself. The spec has no return from it (spec R110). DEDUCED, safe (log 1). -/
def raise (s : State) (e : FatalError) : Result := .next (s.setStatus (.faulted e))

/-- Carries on after a check that passed, or raises in `s` the error the check reports. -/
def orRaise (s : State) {α : Type} (r : Except FatalError α) (k : α → Result) : Result :=
  match r with
  | .error e => raise s e
  | .ok a => k a

/-- The code of an error kind (spec R103). -/
def FatalError.code : FatalError → Nat
  | .outOfBounds _ => 1
  | .stackUnderflow _ => 2
  | .illegalInstruction _ _ => 3
  | .loadTooLarge _ => 4
  | .stackOverflow _ => 5

/-! ## Fetch (spec R44, R53) -/

/-- The two reads at `pc`, then `pc + 1`, and the big-endian word they make (spec R40, R44, R53). -/
def fetch (s : State) : Except FatalError Word :=
  match memRead s s.pc.toNat with
  | .error e => .error e
  | .ok hi =>
    match memRead s (s.pc.toNat + 1) with
    | .error e => .error e
    | .ok lo => .ok (wordOfBytes hi lo)

/-- Execute's report of a word that names no instruction, in the state after the fetch (spec R55, R62, R105). -/
def raiseIllegal (w : Word) (s : State) : Result := raise s (.illegalInstruction s.fetchAddr w)

/-- Places the word `w` where the next fetch reads: its high byte at `pc`, its low byte at `pc + 1` (spec R40). -/
def placeWord (s : State) (w : Word) : State :=
  s.setMem (Memory.write (Memory.write s.mem s.pc.toNat (highByte w)) (s.pc.toNat + 1) (lowByte w))

end Sys2Proof.Machine
end

