-- ==== Sys2Proof/Machine/Operands.lean ====
section
/-! DEFINITION. The operand forms: addresses, the shift source, the jump offset, sprite coordinates and key ids. -/

namespace Sys2Proof.Machine

open Sys2Proof

/-- `zext_16(nnn)` (spec R58). -/
def zext12 (nnn : Addr12) : Word := nnn.setWidth 16

/-- The optional copy of a shift: `V[x] <- V[y]` under `use_y_in_shift`, nothing otherwise (spec R76, R77). -/
def copyForShift (x y : Reg) (s : State) : State :=
  if s.quirks.useYInShift then s.setV x (s.V y) else s

/-- `nnn[11:8]`, the `x` field of BNNN (spec R64, R89). -/
def offsetField (nnn : Addr12) : Reg := (nnn.extractLsb' 8 4).toFin

/-- The register whose value BNNN adds: V[nnn[11:8]] under `use_vx_for_jump_offset`, else V[0] (spec R89). -/
def jumpOffsetReg (nnn : Addr12) (s : State) : Reg :=
  if s.quirks.useVxForJumpOffset then offsetField nnn else 0

/-- `zext_16(nnn) + V[r]`, not masked to 12 bits (spec R89). -/
def jumpTarget (nnn : Addr12) (s : State) : Word :=
  zext12 nnn + (s.V (jumpOffsetReg nnn s)).setWidth 16

/-- The column a sprite starts in: wrapped once (spec R92). -/
def startColumn (v : Byte) : Nat := v.toNat % Config.dispW

/-- The row a sprite starts in: wrapped once (spec R92). -/
def startRow (v : Byte) : Nat := v.toNat % Config.dispH

/-- The index of display cell (px, py) (spec R29). -/
def cellIndex (px py : Nat) : Nat := px + Config.dispW * py

/-- The address of sprite row `r`: the exact sum I + r (spec R45). -/
def spriteAddr (s : State) (r : Nat) : Nat := s.i.toNat + r

/-- Bit of column `c` of a sprite row, the most significant bit leftmost (spec R92, R95). -/
def spriteBit (b : Byte) (c : Nat) : Bool := b.getLsbD (7 - c)

/-- `v in Keys`: the full 8-bit value is the key id, so 0x10 and above is never a member (spec R97).
UNVERIFIED, unsafe (D18, log 10). -/
def keyHeld (s : State) (v : Byte) : Bool := s.keys.getLsbD v.toNat

end Sys2Proof.Machine
end

