-- ==== Sys2Proof/Machine/Flags.lean ====
section
/-! DEFINITION. The flag computations, and the order in which a result and its flag are written. -/

namespace Sys2Proof.Machine

open Sys2Proof

/-- A flag as the value V[0xF] takes: 1 or 0, never another (spec R73 to R77). -/
def flagByte (b : Bool) : Byte := if b then 1 else 0

/-- The exact unsigned sum, 0 to 510 (spec R73). -/
def exactSum (a b : Byte) : Nat := a.toNat + b.toNat

/-- A sum stored modulo 256 (spec R68, R73, R80). -/
def sumByte (a b : Byte) : Byte := BitVec.ofNat 8 (exactSum a b)

/-- The carry of 8XY4: the exact sum is above 255 (spec R73, R80). -/
def carryFlag (a b : Byte) : Byte := flagByte (decide (255 < exactSum a b))

/-- A difference stored modulo 256 (spec R74, R75, R80). -/
def diffByte (a b : Byte) : Byte := BitVec.ofInt 8 ((a.toNat : Int) - (b.toNat : Int))

/-- The not-borrow of 8XY5 and 8XY7: the minuend is at least the subtrahend (spec R74, R75, R80). -/
def notBorrowFlag (a b : Byte) : Byte := flagByte (decide (b.toNat ≤ a.toNat))

/-- The bit a right shift shifts out: bit 0 (spec R76). -/
def shiftedOutRight (v : Byte) : Byte := v &&& 0x01

/-- The bit a left shift shifts out: bit 7, as 0 or 1 (spec R77). UNVERIFIED, unsafe (D27, log 10). -/
def shiftedOutLeft (v : Byte) : Byte := (v &&& 0x80) >>> 7

/-- The write order of 8XY4 to 8XY7 and 8XYE: the destination first, V[0xF] last (spec R16, R132). -/
def writeThenFlag (x : Reg) (result flag : Byte) (s : State) : State := (s.setV x result).setV VF flag

end Sys2Proof.Machine
end

