-- ==== Sys2Proof/Machine/Arith.lean ====
section
/-! DEFINITION. The meanings of the arithmetic, logic, register and index instructions (spec 40_arithmetic_logic).
Each runs in the state after the fetch, where `pc = a + 2` (spec R18). -/

namespace Sys2Proof.Machine

open Sys2Proof

/-- 6XNN: `V[x] <- nn` (spec R67). -/
def execLdImm (x : Reg) (nn : Byte) (s : State) : Result := .next (s.setV x nn)

/-- 7XNN: `V[x] <- (V[x] + nn) mod 256`, no flag (spec R68). -/
def execAddImm (x : Reg) (nn : Byte) (s : State) : Result := .next (s.setV x (sumByte (s.V x) nn))

/-- 8XY0: `V[x] <- V[y]`, no flag (spec R69). -/
def execLdReg (x y : Reg) (s : State) : Result := .next (s.setV x (s.V y))

/-- 8XY1: `V[x] <- V[x] | V[y]`, no flag (spec R70). -/
def execOrReg (x y : Reg) (s : State) : Result := .next (s.setV x (s.V x ||| s.V y))

/-- 8XY2: `V[x] <- V[x] & V[y]`, no flag (spec R71). -/
def execAndReg (x y : Reg) (s : State) : Result := .next (s.setV x (s.V x &&& s.V y))

/-- 8XY3: `V[x] <- V[x] ^ V[y]`, no flag (spec R72). -/
def execXorReg (x y : Reg) (s : State) : Result := .next (s.setV x (s.V x ^^^ s.V y))

/-- 8XY4: the sum modulo 256, then V[0xF] = carry (spec R73). -/
def execAddReg (x y : Reg) (s : State) : Result :=
  .next (writeThenFlag x (sumByte (s.V x) (s.V y)) (carryFlag (s.V x) (s.V y)) s)

/-- 8XY5: `V[x] - V[y]` modulo 256, then V[0xF] = not-borrow (spec R74). -/
def execSub (x y : Reg) (s : State) : Result :=
  .next (writeThenFlag x (diffByte (s.V x) (s.V y)) (notBorrowFlag (s.V x) (s.V y)) s)

/-- 8XY7: `V[y] - V[x]` modulo 256, then V[0xF] = not-borrow (spec R75). -/
def execSubn (x y : Reg) (s : State) : Result :=
  .next (writeThenFlag x (diffByte (s.V y) (s.V x)) (notBorrowFlag (s.V y) (s.V x)) s)

/-- 8XY6: the optional copy, the flag capture, the shift by 1, then V[0xF] = the bit shifted out (spec R76;
`90_conflicts.md` C1). -/
def execShr (x y : Reg) (s : State) : Result :=
  let s1 := copyForShift x y s
  .next (writeThenFlag x (s1.V x >>> 1) (shiftedOutRight (s1.V x)) s1)

/-- 8XYE: as 8XY6, shifting left (spec R77; `90_conflicts.md` C1). -/
def execShl (x y : Reg) (s : State) : Result :=
  let s1 := copyForShift x y s
  .next (writeThenFlag x (s1.V x <<< 1) (shiftedOutLeft (s1.V x)) s1)

/-- ANNN: `I <- zext_16(nnn)` (spec R78). -/
def execLdI (nnn : Addr12) (s : State) : Result := .next (s.setI (zext12 nnn))

/-- CXNN: `V[x] <- rand8() & nn`, and one random byte is consumed (spec R79, R121). -/
def execRnd (x : Reg) (nn : Byte) (s : State) : Result := .next ((s.setV x (rand8 s &&& nn)).nextRand)

end Sys2Proof.Machine
end

