-- ==== Sys2Proof/Machine/Control.lean ====
section
/-! DEFINITION. The meanings of the control-flow instructions (spec 41_control_flow).
Each runs in the state after the fetch, where `pc = a + 2` (spec R18). -/

namespace Sys2Proof.Machine

open Sys2Proof

/-- A skip: `pc` moves on by another 2 when the condition holds, and nothing else happens (spec R88). -/
def skipIf (c : Bool) (s : State) : Result := .next (if c then s.advance else s)

/-- 1NNN: `pc <- zext_16(nnn)` (spec R81). -/
def execJp (nnn : Addr12) (s : State) : Result := .next (s.setPc (zext12 nnn))

/-- 2NNN: `push(pc)`, which may raise StackOverflow, then `pc <- zext_16(nnn)` (spec R82). -/
def execCall (nnn : Addr12) (s : State) : Result :=
  orRaise s (push s s.pc) fun s1 => .next (s1.setPc (zext12 nnn))

/-- 00EE: `pc <- pop()`, which may raise StackUnderflow (spec R83). -/
def execRet (s : State) : Result := orRaise s (pop s) fun p => .next (p.2.setPc p.1)

/-- 3XNN: skip if `V[x] = nn` (spec R84). -/
def execSeImm (x : Reg) (nn : Byte) (s : State) : Result := skipIf (decide (s.V x = nn)) s

/-- 4XNN: skip if `V[x] != nn` (spec R85). -/
def execSneImm (x : Reg) (nn : Byte) (s : State) : Result := skipIf (decide (s.V x ≠ nn)) s

/-- 5XY0: skip if `V[x] = V[y]` (spec R86). -/
def execSeReg (x y : Reg) (s : State) : Result := skipIf (decide (s.V x = s.V y)) s

/-- 9XY0: skip if `V[x] != V[y]` (spec R87). -/
def execSneReg (x y : Reg) (s : State) : Result := skipIf (decide (s.V x ≠ s.V y)) s

/-- BNNN: `pc <- zext_16(nnn) + V[0]`, or `+ V[x]` under the quirk (spec R89). -/
def execJpV0 (nnn : Addr12) (s : State) : Result := .next (s.setPc (jumpTarget nnn s))

end Sys2Proof.Machine
end

