-- ==== Sys2Proof/Machine/Display.lean ====
section
/-! DEFINITION. The meanings of the display instructions and the sprite-collision detector (spec 42_display).
Each runs in the state after the fetch, where `pc = a + 2` (spec R18). -/

namespace Sys2Proof.Machine

open Sys2Proof

/-- 00E0: every cell unlit, V[0xF] unchanged (spec R91). -/
def execCls (s : State) : Result := .next (s.setDisp 0)

/-- The least row address below row `n` that lies outside memory, if one does (spec R92). -/
def firstRowOutside (s : State) (n : Nat) : Option Nat :=
  ((List.range n).map (spriteAddr s)).find? fun a => decide (Config.memSize ≤ a)

/-- One set bit of a sprite at cell (px, py): V[0xF] <- 1 if the cell is lit, then the cell is toggled (spec R92). -/
def toggleCell (px py : Nat) (s : State) : State :=
  let lit := s.cell (cellIndex px py)
  (if lit then s.setV VF 1 else s).setCell (cellIndex px py) (!lit)

/-- The columns of one sprite row `b` at display row `py`, left to right; at the right edge the rest of the row is
clipped (spec R92). -/
def drawColumns (b : Byte) (x0 py : Nat) : List Nat → State → State
  | [], s => s
  | c :: cs, s =>
    if Config.dispW ≤ x0 + c then s
    else drawColumns b x0 py cs (if spriteBit b c then toggleCell (x0 + c) py s else s)

/-- The rows of a sprite, top to bottom; at the bottom edge drawing stops (spec R92). -/
def drawRows (x0 y0 : Nat) : List Nat → State → State
  | [], s => s
  | r :: rs, s =>
    if Config.dispH ≤ y0 + r then s
    else drawRows x0 y0 rs (drawColumns (Memory.byte s.mem (spriteAddr s r)) x0 (y0 + r) (List.range 8) s)

/-- DXYN: the bounds check of all n rows, the coordinates, V[0xF] <- 0, then the drawing loop (spec R92). The
coordinates are those before V[0xF] is reset: UNVERIFIED, unsafe (D11, log 10). -/
def execDrw (x y : Reg) (n : Nat) (s : State) : Result :=
  match firstRowOutside s n with
  | some a => raise s (.outOfBounds a)
  | none =>
    .next (drawRows (startColumn (s.V x)) (startRow (s.V y)) (List.range n) (s.setV VF 0))

end Sys2Proof.Machine
end

