-- ==== Sys2Proof/Machine/KeypadTimer.lean ====
section
/-! DEFINITION. The meanings of the keypad and timer-transfer instructions (spec 43_timers_keypad).
Each runs in the state after the fetch, where `pc = a + 2` (spec R18). -/

namespace Sys2Proof.Machine

open Sys2Proof

/-- EX9E: skip if the key V[x] is held (spec R97). -/
def execSkp (x : Reg) (s : State) : Result := skipIf (keyHeld s (s.V x)) s

/-- EXA1: skip if the key V[x] is not held (spec R98). -/
def execSknp (x : Reg) (s : State) : Result := skipIf (!keyHeld s (s.V x)) s

/-- FX07: `V[x] <- DT` (spec R99). -/
def execLdVxDt (x : Reg) (s : State) : Result := .next (s.setV x s.dt)

/-- FX15: `DT <- V[x]` (spec R100). -/
def execLdDtVx (x : Reg) (s : State) : Result := .next (s.setDt (s.V x))

/-- FX18: `ST <- V[x]` (spec R101). -/
def execLdStVx (x : Reg) (s : State) : Result := .next (s.setSt (s.V x))

end Sys2Proof.Machine
end

