-- ==== Sys2Proof/Machine/Step.lean ====
section
/-! DEFINITION. One step of the engine: fetch, advance pc, decode, execute (spec R53). -/

namespace Sys2Proof.Machine

open Sys2Proof

/-- The execute stage of a fetched word, in the state after the fetch: the instruction's meaning, or
IllegalInstruction (spec R55, R59, R62). -/
def execWord (w : Word) (s : State) : Result :=
  match decodeWord w with
  | .ok i => exec i s
  | .error _ => raiseIllegal w s

/-- `step()` (spec R53): no step is admitted from a faulted state (spec R104); a fetch that fails leaves `pc`
(spec R44, R105); otherwise pc advances by 2 and the word executes. The meanings themselves do
not look at the status: DEDUCED, safe (log 20). -/
def step (s : State) : Host.Outcome State Fault Refusal :=
  match s.status with
  | .faulted e => .fault (.stepWhileFaulted e)
  | .running => orRaise s (fetch s) fun w => execWord w s.advance

/-- `s` with the word of an opcode-table row stored where `step` fetches next. DESIGN CHOICE, safe
(log 12). -/
def State.withFetchWord (s : State) (nbits w : Nat) : State := placeWord s (tableWord nbits w)

end Sys2Proof.Machine
end

