-- ==== Sys2Proof/Machine/HostInterface.lean ====
section
/-! DEFINITION. The host's operations beside `step`: construction, load, timer ticks, the key set, the reads, and a
schedule of them (spec 60_exceptions sections 4 and 6, 70_reset_and_hazards). -/

namespace Sys2Proof.Machine

open Sys2Proof

/-! ## Construction (spec R125, R126) -/

/-- What construction takes: the strap inputs and every parameter the spec leaves open (spec R7, R9, R36; 92 D7,
D16, D17). -/
structure Construction where
  /-- The two quirk inputs. -/
  quirks : Quirks
  /-- `STACK_CAPACITY`. -/
  stackCapacity : Option Nat
  /-- `RESET_V`. -/
  resetV : Fin 16 → Byte
  /-- `RESET_I`. -/
  resetI : Word
  /-- `RESET_DT`. -/
  resetDt : Byte
  /-- `RESET_ST`. -/
  resetSt : Byte
  /-- `RESET_DISPLAY`. -/
  resetDisplay : BitVec 2048
  /-- `RESET_MEM`, read outside the font. -/
  resetMem : Nat → Byte
  /-- `RESET_KEYS`. -/
  resetKeys : BitVec 16
  /-- `FONT`. -/
  font : Fin 80 → Byte

/-- The byte construction leaves at address `a`: the font at 0x050 to 0x09F, `RESET_MEM` elsewhere (spec R36, R126). -/
def Construction.byteAt (p : Construction) (a : Nat) : Byte :=
  if h : Config.fontBase ≤ a ∧ a - Config.fontBase < 80 then p.font ⟨a - Config.fontBase, h.2⟩ else p.resetMem a

/-- Writes `f a` to every address of a list, in order. -/
def writeAll (f : Nat → Byte) : List Nat → List Host.Cell → List Host.Cell
  | [], m => m
  | a :: as, m => writeAll f as (Memory.write m a (f a))

/-- The engine constructed with `p` (spec R36, R125). -/
def construct (p : Construction) : State where
  mem := writeAll p.byteAt (List.range Config.memSize) []
  v := Vector.ofFn p.resetV
  i := p.resetI
  pc := 0x200
  stack := []
  dt := p.resetDt
  st := p.resetSt
  disp := p.resetDisplay
  keys := p.resetKeys
  quirks := p.quirks
  stackCapacity := p.stackCapacity
  status := .running
  randCount := 0

/-- The parameters of `State.reset`: the model's values where the spec states none (logs 3 to 8). -/
def Construction.default : Construction where
  quirks := ⟨false, false⟩
  stackCapacity := none
  resetV := fun _ => 0
  resetI := 0
  resetDt := 0
  resetSt := 0
  resetDisplay := 0
  resetMem := fun _ => 0
  resetKeys := 0
  font := fun k => fontByte k

/-! ## The operations -/

/-- The result of `load` and of `step` as the host sees it: Ok or Fault(code, info) (spec R102, R116). -/
inductive OpResult where
  /-- The operation succeeded. -/
  | ok
  /-- The operation returned the error `e`. -/
  | fault (e : FatalError)
  deriving DecidableEq, Repr

/-- What a step reports, read from the state it leaves (spec R102, R104). -/
def stepResult (t : State) : OpResult :=
  match t.status with
  | .running => .ok
  | .faulted e => .fault e

/-- The bytes of a program written from address `a` on (spec R117). -/
def writeFrom (a : Nat) : List Byte → List Host.Cell → List Host.Cell
  | [], m => m
  | b :: bs, m => writeFrom (a + 1) bs (Memory.write m a b)

/-- `load(bytes)`: LoadTooLarge, checked before any write and changing nothing, or the bytes from 0x200 on (spec
R104, R117). -/
def load (bytes : List Byte) (s : State) : OpResult × State :=
  if Config.memSize - Config.progBase < bytes.length then (.fault (.loadTooLarge bytes.length), s)
  else (.ok, s.setMem (writeFrom Config.progBase bytes s.mem))

/-- A timer counted down by one and clamped at zero (spec R25, R112). -/
def countDown (b : Byte) : Byte := if 0 < b.toNat then b - 1 else b

/-- `tick_timers()`: both timers, independently, in any status (spec R112). -/
def tickTimers (s : State) : State := (s.setDt (countDown s.dt)).setSt (countDown s.st)

/-- `set_pressed_keys(mask)`: replaces the whole key set, in any status (spec R119). -/
def setPressedKeys (mask : BitVec 16) (s : State) : State := s.setKeys mask

/-- `read_display()`: a copy of the cells (spec R118). -/
def readDisplay (s : State) : BitVec 2048 := s.disp

/-- `read_sound_timer()` (spec R120). -/
def readSoundTimer (s : State) : Byte := s.st

/-- The sound output: a tone plays while ST > 0 (spec R114, R120). -/
def soundOn (s : State) : Bool := decide (0 < (readSoundTimer s).toNat)

/-! ## A schedule of operations (spec R113, R129) -/

/-- One operation the host issues. The two reads change nothing and need no place here. -/
inductive HostOp where
  /-- `load(bytes)`. -/
  | load (bytes : List Byte)
  /-- `step()`. -/
  | step
  /-- `tick_timers()`. -/
  | tick
  /-- `set_pressed_keys(mask)`. -/
  | setKeys (mask : BitVec 16)
  deriving DecidableEq, Repr

/-- Whether `load` is still admitted: until the first step and the first load that succeeded (spec R51, R117).
DEDUCED, safe (log 13). -/
inductive Boot where
  /-- No step and no successful load yet. -/
  | fresh
  /-- `load` is no longer admitted. -/
  | begun
  deriving DecidableEq, Repr

/-- Whether `load` is admitted after a load with this result: one that failed left the engine as it was. -/
def bootAfterLoad : OpResult → Boot
  | .ok => .begun
  | .fault _ => .fresh

/-- Issues one operation and says whether `load` is admitted after it (log 13). -/
def hostOp (b : Boot) (op : HostOp) (s : State) : Host.Outcome (Boot × State) Fault Refusal :=
  match op with
  | .load bytes =>
    match b with
    | .fresh => .next (bootAfterLoad (load bytes s).1, (load bytes s).2)
    | .begun => .refused .loadNotAdmitted
  | .step =>
    match step s with
    | .next t => .next (.begun, t)
    | .fault r => .fault r
    | .refused r => .refused r
  | .tick => .next (b, tickTimers s)
  | .setKeys mask => .next (b, setPressedKeys mask s)

/-- Issues operations in order, each complete before the next (spec R48, R113). DEDUCED, safe for every
schedule (log 11). -/
def hostRun : Boot → List HostOp → State → Host.Outcome (Boot × State) Fault Refusal
  | b, [], s => .next (b, s)
  | b, op :: ops, s =>
    match hostOp b op s with
    | .next (b1, s1) => hostRun b1 ops s1
    | .fault r => .fault r
    | .refused r => .refused r

end Sys2Proof.Machine
end

