-- ==== Sys2Proof/Safety.lean ====
section
/-! DEFINITION. The terms statements are made in: what a step may change, the register sets of spec R14, the
invariant of the machine, an illegal word, a drawn sprite bit, and the end of a run. -/

namespace Sys2Proof

open Sys2Proof.Machine

/-! ## Frames -/

/-- From `s` to `t` no register outside `l` changes, and nothing but registers changes. -/
def KeepsAllBut (l : List Reg) (s t : State) : Prop :=
  (∀ r, r ∉ l → t.V r = s.V r) ∧ t = { s with v := t.v }

/-- From `s` to `t` nothing changes but the program counter. -/
def KeepsAllButPc (s t : State) : Prop := t = { s with pc := t.pc }

/-- The registers an instruction reads (spec R14). -/
def readSet (i : Instr) (s : State) : List Reg :=
  match i with
  | .cls | .ret | .jp _ | .call _ | .ldI _ => []
  | .ldImm _ _ | .rnd _ _ | .ldVxDt _ => []
  | .seImm x _ | .sneImm x _ | .addImm x _ => [x]
  | .seReg x y | .sneReg x y | .orReg x y | .andReg x y | .xorReg x y => [x, y]
  | .ldReg _ y => [y]
  | .addReg x y | .sub x y | .subn x y | .drw x y _ => [x, y]
  | .shr x y | .shl x y => if s.quirks.useYInShift then [x, y] else [x]
  | .jpV0 nnn => if s.quirks.useVxForJumpOffset then [offsetField nnn] else [0]
  | .skp x | .sknp x | .ldDtVx x | .ldStVx x => [x]

/-- The registers an instruction writes (spec R14). -/
def writeSet : Instr → List Reg
  | .cls | .ret | .jp _ | .call _ | .ldI _ => []
  | .seImm _ _ | .sneImm _ _ | .seReg _ _ | .sneReg _ _ | .jpV0 _ => []
  | .skp _ | .sknp _ | .ldDtVx _ | .ldStVx _ => []
  | .ldImm x _ | .addImm x _ | .rnd x _ | .ldVxDt x => [x]
  | .ldReg x _ | .orReg x _ | .andReg x _ | .xorReg x _ => [x]
  | .addReg x _ | .sub x _ | .subn x _ | .shr x _ | .shl x _ => [x, VF]
  | .drw _ _ _ => [VF]

/-- The pc a successful step leaves, `a` being the fetch address and `s` the state before the step (spec R19). -/
def pcAfter (i : Instr) (a : Word) (s : State) : Word :=
  match i with
  | .jp nnn | .call nnn => zext12 nnn
  | .ret => s.stack.headD 0
  | .jpV0 nnn => zext12 nnn + (s.V (if s.quirks.useVxForJumpOffset then offsetField nnn else 0)).setWidth 16
  | .seImm x nn => if s.V x = nn then a + 4 else a + 2
  | .sneImm x nn => if s.V x = nn then a + 2 else a + 4
  | .seReg x y => if s.V x = s.V y then a + 4 else a + 2
  | .sneReg x y => if s.V x = s.V y then a + 2 else a + 4
  | .skp x => if keyHeld s (s.V x) then a + 4 else a + 2
  | .sknp x => if keyHeld s (s.V x) then a + 2 else a + 4
  | .cls | .ldImm _ _ | .addImm _ _ | .ldReg _ _ | .orReg _ _ | .andReg _ _ | .xorReg _ _ => a + 2
  | .addReg _ _ | .sub _ _ | .shr _ _ | .subn _ _ | .shl _ _ | .ldI _ | .rnd _ _ | .drw _ _ _ => a + 2
  | .ldVxDt _ | .ldDtVx _ | .ldStVx _ => a + 2

/-- The answer of an operation with its next state changed by `f`. -/
def mapNext (f : State → State) (r : Result) : Result :=
  match r with
  | .next t => .next (f t)
  | .fault e => .fault e
  | .refused e => .refused e

/-! ## Words -/

/-- The table of illegal words of spec R62, on the word as a number. -/
def illegalPattern (w : Nat) : Bool :=
  (w / 4096 == 0x0 && w != 0x00E0 && w != 0x00EE) ||
  (w / 4096 == 0x5 && w % 16 != 0) ||
  (w / 4096 == 0x8 && [0x8, 0x9, 0xA, 0xB, 0xC, 0xD, 0xF].contains (w % 16)) ||
  (w / 4096 == 0x9 && w % 16 != 0) ||
  (w / 4096 == 0xE && w % 256 != 0x9E && w % 256 != 0xA1) ||
  (w / 4096 == 0xF && w % 256 != 0x07 && w % 256 != 0x15 && w % 256 != 0x18)

/-! ## Drawing -/

/-- The sprite bit DRW draws at cell (px, py), from state `s`: false outside the sprite and where the bit is 0
(spec R92, R93). A cell of the display is never clipped, so the edges need no mention. -/
def drawnBit (s : State) (x y : Reg) (n px py : Nat) : Bool :=
  let x0 := (s.V x).toNat % 64
  let y0 := (s.V y).toNat % 32
  decide (x0 ≤ px) && decide (px < x0 + 8) && decide (y0 ≤ py) && decide (py < y0 + n) &&
    (Memory.byte s.mem (s.i.toNat + (py - y0))).getLsbD (7 - (px - x0))

/-- Some cell drawn by DRW has its sprite bit set and holds `lit` in `s` (spec R93). -/
def DrawsOn (lit : Bool) (s : State) (x y : Reg) (n : Nat) : Prop :=
  ∃ px py, px < 64 ∧ py < 32 ∧ drawnBit s x y n px py = true ∧ s.cell (px + 64 * py) = lit

/-! ## Invariant and runs -/

/-- The call stack holds at most `STACK_CAPACITY` entries (spec R26). -/
def WithinCapacity (s : State) : Prop := ∀ c, s.stackCapacity = some c → s.stack.length ≤ c

/-- What every step keeps: memory in canonical form, pc at most 0x10FE and every pushed address at most 0x1000
(spec R20), and the stack within its capacity (spec R26). -/
structure EngineInv (s : State) : Prop where
  /-- Memory is in canonical form. -/
  memWf : Memory.wf s.mem = true
  /-- `pc` never exceeds 0x10FE. -/
  pcBound : s.pc.toNat ≤ 0x10FE
  /-- Every pushed address is at most 0x1000. -/
  stackBound : ∀ a ∈ s.stack, a.toNat ≤ 0x1000
  /-- The depth is at most the capacity. -/
  depthBound : WithinCapacity s

/-- A safe outcome: a next state whose status is Running (spec R104: a faulted run refutes any claim). -/
def SafeNext (r : Result) : Prop := ∃ t, r = .next t ∧ t.status = .running

/-- A run is stopped at `h`: running, `pc = h`, and the word at `h` is 1NNN with `nnn = h` (spec R134). -/
def StoppedAt (h : Addr12) (s : State) : Prop :=
  s.status = .running ∧ s.pc = zext12 h ∧ fetch s = .ok (formatNNN 0x1 h)

end Sys2Proof
end

