-- ==== Sys2Proof/Certificates/Slice0/Obligations.lean ====
section
/-! DEFINITION. The statements for the provers, from the numbered rules of spec/. -/

open Sys2Proof Sys2Proof.Machine

/-! ## Encoding -/

/-- Words written out from the encodings of spec R57 and R59 decode to the instructions they stand for. -/
def Obligations.SpecWordsDecode : Prop :=
  decodeWord 0x00E0 = .ok .cls ∧ decodeWord 0x00EE = .ok .ret ∧ decodeWord 0x1234 = .ok (.jp 0x234) ∧
  decodeWord 0x6005 = .ok (.ldImm 0 0x05) ∧ decodeWord 0x8014 = .ok (.addReg 0 1) ∧
  decodeWord 0x845E = .ok (.shl 4 5) ∧ decodeWord 0xB300 = .ok (.jpV0 0x300) ∧
  decodeWord 0xD123 = .ok (.drw 1 2 3) ∧ decodeWord 0xE2A1 = .ok (.sknp 2) ∧ decodeWord 0xF118 = .ok (.ldStVx 1) ∧
  decodeWord 0x0123 = .error .illegal0 ∧ decodeWord 0x5121 = .error .illegal5 ∧
  decodeWord 0x800F = .error .illegal8 ∧ decodeWord 0xF00A = .error .illegalF

/-- Spec R54: the six fields are the slices of the word, and the four nibbles make it up again. -/
def Obligations.FieldsAreSlicesAndReassemble : Prop :=
  ∀ w : Word,
    (fieldsOf w).opcode.toNat = w.toNat / 4096 ∧ (fieldsOf w).x.val = w.toNat / 256 % 16 ∧
    (fieldsOf w).y.val = w.toNat / 16 % 16 ∧ (fieldsOf w).n.toNat = w.toNat % 16 ∧
    (fieldsOf w).nn.toNat = w.toNat % 256 ∧ (fieldsOf w).nnn.toNat = w.toNat % 4096 ∧
    formatXYN (fieldsOf w).opcode (fieldsOf w).x (fieldsOf w).y (fieldsOf w).n = w

/-- Decoding the word of any well-formed instruction gives the instruction back. -/
def Obligations.DecodeOfEncode : Prop :=
  ∀ i : Instr, i.wellFormed = true → decodeWord (encode i) = .ok i

/-- Every word that decodes is the one word of its instruction, which is well formed. -/
def Obligations.EncodeOfDecode : Prop :=
  ∀ (w : Word) (i : Instr), decodeWord w = .ok i → i.wellFormed = true ∧ encode i = w

/-- Spec R62: the illegal words are those of the table, 21,678 of them, and a step on one raises
IllegalInstruction with pc advanced and no other state changed. -/
def Obligations.IllegalWordsAreThoseOfTheTable : Prop :=
  (∀ w : Word, (∃ e, decodeWord w = .error e) ↔ illegalPattern w.toNat = true) ∧
  (List.range 65536).countP illegalPattern = 21678 ∧
  (∀ (s : State) (w : Word), s.status = .running → fetch s = .ok w → illegalPattern w.toNat = true →
    step s = .next { s with pc := s.pc + 2, status := .faulted (.illegalInstruction s.pc w) })

/-! ## The step -/

/-- Spec R53: a step of a running engine reads the bytes at pc, then pc + 1, and decodes their big-endian word. A
word that decodes is executed, exactly that instruction, in the state with pc advanced by 2; a word that does not
raises IllegalInstruction in that state; a read that raises leaves pc where it was. -/
def Obligations.StepRunsTheDecodedInstruction : Prop :=
  ∀ (s : State) (hi lo : Byte), s.status = .running →
    (memRead s s.pc.toNat = .ok hi → memRead s (s.pc.toNat + 1) = .ok lo →
      (∀ i, decodeWord (hi ++ lo) = .ok i → step s = exec i { s with pc := s.pc + 2 }) ∧
      (∀ e, decodeWord (hi ++ lo) = .error e →
        step s = .next { s with pc := s.pc + 2, status := .faulted (.illegalInstruction s.pc (hi ++ lo)) })) ∧
    (∀ e, memRead s s.pc.toNat = .error e → step s = .next { s with status := .faulted e }) ∧
    (∀ e, memRead s s.pc.toNat = .ok hi → memRead s (s.pc.toNat + 1) = .error e →
      step s = .next { s with status := .faulted e })

/-- Spec R44: a fetch succeeds exactly when pc is at most 0xFFE; otherwise the step raises OutOfBounds with the
first address that failed, and pc is not advanced. -/
def Obligations.FetchOutsideMemoryRaises : Prop :=
  ∀ s : State, s.status = .running →
    (s.pc.toNat ≤ 0xFFE → ∃ w, fetch s = .ok w) ∧
    (s.pc.toNat = 0xFFF → step s = .next { s with status := .faulted (.outOfBounds 0x1000) }) ∧
    (0x1000 ≤ s.pc.toNat → step s = .next { s with status := .faulted (.outOfBounds s.pc.toNat) })

/-- Spec R104: raising sets the status to Faulted and changes nothing else; no step is admitted from a faulted
state, and no operation of the host clears it; a load that fails leaves the engine as it was. -/
def Obligations.FaultedStatusIsSticky : Prop :=
  (∀ (s : State) (e : FatalError), raise s e = .next { s with status := .faulted e }) ∧
  (∀ (s : State) (e : FatalError), s.status = .faulted e →
    step s = .fault (.stepWhileFaulted e) ∧
    (∀ b op b1 t, hostOp b op s = .next (b1, t) → t.status = .faulted e)) ∧
  (∀ (s : State) (bytes : List Byte) (e : FatalError), (load bytes s).1 = .fault e → (load bytes s).2 = s)

/-- Spec R19: where a successful step leaves pc, for every instruction. -/
def Obligations.PcAfterSuccessfulStep : Prop :=
  ∀ (s t : State) (w : Word) (i : Instr), s.status = .running → fetch s = .ok w → decodeWord w = .ok i →
    step s = .next t → t.status = .running → t.pc = pcAfter i s.pc s

/-- A word placed for the next fetch is the instruction the very next step runs (the model's host interface,
log 12). Memory is in canonical form, which every run keeps (EngineInv, StepKeepsInvariant). -/
def Obligations.PlacedWordIsRun : Prop :=
  ∀ (s : State) (w : Nat) (i : Instr), Memory.wf s.mem = true → s.status = .running → s.pc.toNat ≤ 0xFFE →
    decodeTableWord 16 w = some i →
    step (s.withFetchWord 16 w) = exec i (s.withFetchWord 16 w).advance

/-! ## Arithmetic, logic, register and index instructions -/

/-- Spec R67, R69: 6XNN and 8XY0 write V[x] and nothing else. -/
def Obligations.SetAndCopyRegister : Prop :=
  ∀ (s : State) (x y : Reg) (nn : Byte),
    (∃ t, exec (.ldImm x nn) s = .next t ∧ t.V x = nn ∧ KeepsAllBut [x] s t) ∧
    (∃ t, exec (.ldReg x y) s = .next t ∧ t.V x = s.V y ∧ KeepsAllBut [x] s t)

/-- Spec R68: 7XNN adds modulo 256 and writes no flag. -/
def Obligations.AddImmediateWrapsWithoutFlag : Prop :=
  ∀ (s : State) (x : Reg) (nn : Byte),
    ∃ t, exec (.addImm x nn) s = .next t ∧ (t.V x).toNat = ((s.V x).toNat + nn.toNat) % 256 ∧ KeepsAllBut [x] s t

/-- Spec R70, R71, R72: OR, AND and XOR are bitwise, bit by bit, and write no flag. -/
def Obligations.LogicIsBitwiseWithoutFlag : Prop :=
  ∀ (s : State) (x y : Reg),
    (∃ t, exec (.orReg x y) s = .next t ∧
      (∀ k < 8, (t.V x).getLsbD k = ((s.V x).getLsbD k || (s.V y).getLsbD k)) ∧ KeepsAllBut [x] s t) ∧
    (∃ t, exec (.andReg x y) s = .next t ∧
      (∀ k < 8, (t.V x).getLsbD k = ((s.V x).getLsbD k && (s.V y).getLsbD k)) ∧ KeepsAllBut [x] s t) ∧
    (∃ t, exec (.xorReg x y) s = .next t ∧
      (∀ k < 8, (t.V x).getLsbD k = ((s.V x).getLsbD k ^^ (s.V y).getLsbD k)) ∧ KeepsAllBut [x] s t)

/-- Spec R73: 8XY4 stores the sum modulo 256, then the carry in V[0xF], which wins when x = 0xF. -/
def Obligations.CheckedAddSumAndCarry : Prop :=
  ∀ (s : State) (x y : Reg),
    ∃ t, exec (.addReg x y) s = .next t ∧
      (x ≠ VF → (t.V x).toNat = ((s.V x).toNat + (s.V y).toNat) % 256) ∧
      t.V VF = (if 255 < (s.V x).toNat + (s.V y).toNat then 1 else 0) ∧ KeepsAllBut [x, VF] s t

/-- Spec R74: 8XY5 stores the difference modulo 256, then the not-borrow in V[0xF], which wins when x = 0xF. -/
def Obligations.CheckedSubDifferenceAndNotBorrow : Prop :=
  ∀ (s : State) (x y : Reg),
    ∃ t, exec (.sub x y) s = .next t ∧
      (x ≠ VF → ((t.V x).toNat : Int) = (((s.V x).toNat : Int) - (s.V y).toNat) % 256) ∧
      t.V VF = (if (s.V y).toNat ≤ (s.V x).toNat then 1 else 0) ∧ KeepsAllBut [x, VF] s t

/-- Spec R75: 8XY7 stores the reverse difference modulo 256, then the not-borrow in V[0xF]. -/
def Obligations.ReverseSubDifferenceAndNotBorrow : Prop :=
  ∀ (s : State) (x y : Reg),
    ∃ t, exec (.subn x y) s = .next t ∧
      (x ≠ VF → ((t.V x).toNat : Int) = (((s.V y).toNat : Int) - (s.V x).toNat) % 256) ∧
      t.V VF = (if (s.V x).toNat ≤ (s.V y).toNat then 1 else 0) ∧ KeepsAllBut [x, VF] s t

/-- Spec R76: 8XY6 shifts V[y] under `use_y_in_shift`, else V[x], and V[0xF] ends as the old bit 0. -/
def Obligations.ShiftRightResultAndFlag : Prop :=
  ∀ (s : State) (x y : Reg),
    let v : Byte := if s.quirks.useYInShift then s.V y else s.V x
    ∃ t, exec (.shr x y) s = .next t ∧ (x ≠ VF → (t.V x).toNat = v.toNat / 2) ∧
      (t.V VF).toNat = v.toNat % 2 ∧ KeepsAllBut [x, VF] s t

/-- Spec R77: 8XYE shifts V[y] under `use_y_in_shift`, else V[x], and V[0xF] ends as the old bit 7, 0 or 1. -/
def Obligations.ShiftLeftResultAndFlag : Prop :=
  ∀ (s : State) (x y : Reg),
    let v : Byte := if s.quirks.useYInShift then s.V y else s.V x
    ∃ t, exec (.shl x y) s = .next t ∧ (x ≠ VF → (t.V x).toNat = v.toNat * 2 % 256) ∧
      (t.V VF).toNat = v.toNat / 128 ∧ KeepsAllBut [x, VF] s t

/-- Spec R78: ANNN sets I to nnn and changes nothing else. -/
def Obligations.SetIndexRegister : Prop :=
  ∀ (s : State) (nnn : Addr12),
    ∃ t, exec (.ldI nnn) s = .next t ∧ t.i.toNat = nnn.toNat ∧ t = { s with i := t.i }

/-- Spec R79: CXNN takes one fresh byte of the random input, whatever it is, and stores it AND nn. -/
def Obligations.RandomByteMasked : Prop :=
  ∀ (s : State) (x : Reg) (nn : Byte),
    ∃ t, exec (.rnd x nn) s = .next t ∧
      (∀ k < 8, (t.V x).getLsbD k = ((Config.rand s.randCount).getLsbD k && nn.getLsbD k)) ∧
      t.randCount = s.randCount + 1 ∧ KeepsAllBut [x] s { t with randCount := s.randCount }

/-! ## Control flow -/

/-- Spec R81: 1NNN sets pc to nnn and changes nothing else. -/
def Obligations.JumpSetsPc : Prop :=
  ∀ (s : State) (nnn : Addr12), ∃ t, exec (.jp nnn) s = .next t ∧ t.pc.toNat = nnn.toNat ∧ KeepsAllButPc s t

/-- Spec R82, R27: 2NNN pushes the advanced pc and jumps while the stack has room, and on a full stack raises
StackOverflow with no other change. -/
def Obligations.CallPushesOrOverflows : Prop :=
  ∀ (s : State) (nnn : Addr12),
    ((∀ c, s.stackCapacity = some c → s.stack.length < c) →
      ∃ t, exec (.call nnn) s = .next t ∧ t.pc.toNat = nnn.toNat ∧ t.stack = s.pc :: s.stack ∧
        t = { s with pc := t.pc, stack := t.stack }) ∧
    (s.stackCapacity = some s.stack.length →
      exec (.call nnn) s = .next { s with status := .faulted (.stackOverflow (s.pc - 2)) })

/-- Spec R83, R28: 00EE pops the top of the stack into pc, and on an empty stack raises StackUnderflow with no
other change. -/
def Obligations.ReturnPopsOrUnderflows : Prop :=
  ∀ s : State,
    (∀ a rest, s.stack = a :: rest → exec .ret s = .next { s with pc := a, stack := rest }) ∧
    (s.stack = [] → exec .ret s = .next { s with status := .faulted (.stackUnderflow (s.pc - 2)) })

/-- A RET run in the state a CALL left returns to the address after the CALL with the stack as it was. -/
def Obligations.ReturnUndoesCall : Prop :=
  ∀ (s t : State) (nnn : Addr12) (a : Word), s.status = .running → exec (.call nnn) s = .next t →
    t.status = .running → exec .ret { t with pc := a } = .next s

/-- Spec R84 to R87: the four comparing skips move pc on by 2 exactly when their comparison holds, and change
nothing else. -/
def Obligations.ComparingSkips : Prop :=
  ∀ (s : State) (x y : Reg) (nn : Byte),
    (∃ t, exec (.seImm x nn) s = .next t ∧
      t.pc = (if (s.V x).toNat = nn.toNat then s.pc + 2 else s.pc) ∧ KeepsAllButPc s t) ∧
    (∃ t, exec (.sneImm x nn) s = .next t ∧
      t.pc = (if (s.V x).toNat = nn.toNat then s.pc else s.pc + 2) ∧ KeepsAllButPc s t) ∧
    (∃ t, exec (.seReg x y) s = .next t ∧
      t.pc = (if (s.V x).toNat = (s.V y).toNat then s.pc + 2 else s.pc) ∧ KeepsAllButPc s t) ∧
    (∃ t, exec (.sneReg x y) s = .next t ∧
      t.pc = (if (s.V x).toNat = (s.V y).toNat then s.pc else s.pc + 2) ∧ KeepsAllButPc s t)

/-- Spec R89: BNNN sets pc to the exact sum of nnn and V[0], or V[nnn[11:8]] under the quirk. -/
def Obligations.JumpWithOffset : Prop :=
  ∀ (s : State) (nnn : Addr12),
    ∃ t, exec (.jpV0 nnn) s = .next t ∧ KeepsAllButPc s t ∧
      (s.quirks.useVxForJumpOffset = false → t.pc.toNat = nnn.toNat + (s.V 0).toNat) ∧
      (s.quirks.useVxForJumpOffset = true →
        ∀ x : Reg, x.val = nnn.toNat / 256 → t.pc.toNat = nnn.toNat + (s.V x).toNat)

/-! ## Display -/

/-- Spec R91: 00E0 leaves every cell unlit and changes nothing else. -/
def Obligations.ClearScreen : Prop :=
  ∀ s : State, ∃ t, exec .cls s = .next t ∧ (∀ k < 2048, t.cell k = false) ∧ t = { s with disp := t.disp }

/-- Spec R92: DRW raises OutOfBounds with the least row address outside memory, before any effect, also where that
row would be clipped. -/
def Obligations.DrawOutsideMemoryRaises : Prop :=
  ∀ (s : State) (x y : Reg) (n r : Nat), r < n → 4096 ≤ s.i.toNat + r → (∀ q < r, s.i.toNat + q < 4096) →
    exec (.drw x y n) s = .next { s with status := .faulted (.outOfBounds (s.i.toNat + r)) }

/-- Spec R92, R93: where every row address lies in memory, the drawing loop leaves each cell as its old value XOR
the sprite bit drawn on it, V[0xF] = 1 exactly when a drawn bit fell on a lit cell and 0 otherwise, and changes
nothing else. -/
def Obligations.DrawIsCellwiseXorWithCollision : Prop :=
  ∀ (s : State) (x y : Reg) (n : Nat), (∀ r < n, s.i.toNat + r < 4096) →
    ∃ t, exec (.drw x y n) s = .next t ∧
      (∀ px < 64, ∀ py < 32,
        t.cell (px + 64 * py) = (s.cell (px + 64 * py) ^^ drawnBit s x y n px py)) ∧
      (DrawsOn true s x y n → t.V VF = 1) ∧ (¬ DrawsOn true s x y n → t.V VF = 0) ∧
      (∀ r, r ≠ VF → t.V r = s.V r) ∧ t = { s with v := t.v, disp := t.disp }

/-- Drawing the same sprite twice at the same place restores every cell, and the second draw collides exactly when
a drawn bit fell on a cell that was unlit before the first (spec R94, last case). -/
def Obligations.DrawTwiceRestoresDisplay : Prop :=
  ∀ (s t u : State) (x y : Reg) (n : Nat), (∀ r < n, s.i.toNat + r < 4096) →
    exec (.drw x y n) s = .next t → t.V x = s.V x → t.V y = s.V y → exec (.drw x y n) t = .next u →
    u.disp = s.disp ∧ (u.V VF = 1 ↔ DrawsOn false s x y n)

/-! ## Keypad and timers -/

/-- Spec R97, R98: the key skips test the full 8-bit value of V[x] for membership in the key set. -/
def Obligations.KeySkips : Prop :=
  ∀ (s : State) (x : Reg),
    let held : Bool := decide ((s.V x).toNat < 16) && s.keys.getLsbD (s.V x).toNat
    (∃ t, exec (.skp x) s = .next t ∧ t.pc = (if held then s.pc + 2 else s.pc) ∧ KeepsAllButPc s t) ∧
    (∃ t, exec (.sknp x) s = .next t ∧ t.pc = (if held then s.pc else s.pc + 2) ∧ KeepsAllButPc s t)

/-- Spec R99, R100, R101: the timer transfers. -/
def Obligations.TimerTransfers : Prop :=
  ∀ (s : State) (x : Reg),
    (∃ t, exec (.ldVxDt x) s = .next t ∧ t.V x = s.dt ∧ KeepsAllBut [x] s t) ∧
    (∃ t, exec (.ldDtVx x) s = .next t ∧ t.dt = s.V x ∧ t = { s with dt := t.dt }) ∧
    (∃ t, exec (.ldStVx x) s = .next t ∧ t.st = s.V x ∧ t = { s with st := t.st })

/-! ## What no instruction does, and who reads what -/

/-- No instruction writes memory: after any instruction, and after any number of steps, every address reads as
before. -/
def Obligations.NoInstructionWritesMemory : Prop :=
  (∀ (i : Instr) (s t : State), exec i s = .next t → ∀ a, memRead t a = memRead s a) ∧
  (∀ (k : Nat) (s t : State), Host.Core.run Sys2Proof.core k s = .next t → ∀ a, memRead t a = memRead s a)

/-- Spec R14: an instruction that succeeds changes no register outside its write set, and what it does depends on
no register outside its read set. -/
def Obligations.RegisterReadAndWriteSets : Prop :=
  ∀ (i : Instr) (s t : State), s.status = .running → exec i s = .next t → t.status = .running →
    (∀ r, r ∉ writeSet i → t.V r = s.V r) ∧
    (∀ s1 : State, s1 = { s with v := s1.v } → (∀ r ∈ readSet i s, s1.V r = s.V r) →
      ∃ t1, exec i s1 = .next t1 ∧ (∀ r ∈ writeSet i, t1.V r = t.V r) ∧ t1 = { t with v := t1.v })

/-- Which instructions change the index register, the call stack, the timers, the display, the random position and
the status, and that none changes the keys, the quirks or the stack capacity. -/
def Obligations.OnlyTheNamedInstructionsWrite : Prop :=
  ∀ (i : Instr) (s t : State), exec i s = .next t →
    (t.i ≠ s.i → ∃ nnn, i = .ldI nnn) ∧
    (t.stack ≠ s.stack → (∃ nnn, i = .call nnn) ∨ i = .ret) ∧
    (t.dt ≠ s.dt → ∃ x, i = .ldDtVx x) ∧
    (t.st ≠ s.st → ∃ x, i = .ldStVx x) ∧
    (t.disp ≠ s.disp → i = .cls ∨ ∃ x y n, i = .drw x y n) ∧
    (t.randCount ≠ s.randCount → ∃ x nn, i = .rnd x nn) ∧
    (t.status ≠ s.status → (∃ nnn, i = .call nnn) ∨ i = .ret ∨ ∃ x y n, i = .drw x y n) ∧
    t.keys = s.keys ∧ t.quirks = s.quirks ∧ t.stackCapacity = s.stackCapacity

/-- Only the key skips see the key set: any other instruction does the same whatever keys are held. -/
def Obligations.OnlyKeySkipsReadKeys : Prop :=
  ∀ (i : Instr) (s : State) (k : BitVec 16), (∀ x, i ≠ .skp x ∧ i ≠ .sknp x) →
    exec i (setPressedKeys k s) = mapNext (setPressedKeys k) (exec i s)

/-- A timer tick before or after any instruction other than the timer transfers leaves the same state, so only
those see how ticks and steps interleave. -/
def Obligations.TicksCommuteWithOtherInstructions : Prop :=
  ∀ (i : Instr) (s : State), (∀ x, i ≠ .ldVxDt x ∧ i ≠ .ldDtVx x ∧ i ≠ .ldStVx x) →
    exec i (tickTimers s) = mapNext tickTimers (exec i s)

/-- Each quirk bit is seen by its own instructions alone: the shift bit by 8XY6 and 8XYE, the jump bit by BNNN. -/
def Obligations.QuirkBitsActWhereNamed : Prop :=
  ∀ (i : Instr) (s : State) (b : Bool),
    ((∀ x y, i ≠ .shr x y ∧ i ≠ .shl x y) →
      exec i { s with quirks := { s.quirks with useYInShift := b } } =
        mapNext (fun t => { t with quirks := { t.quirks with useYInShift := b } }) (exec i s)) ∧
    ((∀ nnn, i ≠ .jpV0 nnn) →
      exec i { s with quirks := { s.quirks with useVxForJumpOffset := b } } =
        mapNext (fun t => { t with quirks := { t.quirks with useVxForJumpOffset := b } }) (exec i s))

/-- Only CXNN consumes a random byte or depends on which byte comes next. -/
def Obligations.OnlyRandomReadsTheRandomInput : Prop :=
  ∀ (i : Instr) (s : State) (k : Nat), (∀ x nn, i ≠ .rnd x nn) →
    exec i { s with randCount := k } = mapNext (fun t => { t with randCount := k }) (exec i s)

/-! ## Faults -/

/-- An instruction of a running engine raises only the kinds spec R103 names for it, with the info named there, and
changes nothing but the status when it does (spec R105, R107). -/
def Obligations.InstructionFaultsArePrecise : Prop :=
  ∀ (i : Instr) (s t : State) (e : FatalError), s.status = .running → exec i s = .next t → t.status = .faulted e →
    t = { s with status := .faulted e } ∧
    ((∃ nnn, i = .call nnn ∧ e = .stackOverflow (s.pc - 2)) ∨ (i = .ret ∧ e = .stackUnderflow (s.pc - 2)) ∨
      (∃ x y n r, i = .drw x y n ∧ r < n ∧ 4096 ≤ s.i.toNat + r ∧ e = .outOfBounds (s.i.toNat + r)))

/-- A step of a running engine always answers a next state: no instruction is refused and none stops the machine.
That a step which raises a fatal error answers a next state too, with the status Faulted, is the model's form of
R104 and R105 (log 1, DEDUCED). -/
def Obligations.RunningStepAlwaysAnswers : Prop :=
  ∀ s : State, s.status = .running → ∃ t, step s = .next t

/-! ## Invariants -/

/-- The invariant holds at the model's reset. -/
def Obligations.ResetMeetsInvariant : Prop := EngineInv State.reset

/-- The invariant holds after construction with any parameters. -/
def Obligations.ConstructionMeetsInvariant : Prop := ∀ p : Construction, EngineInv (construct p)

/-- Every step keeps the invariant: memory canonical, pc at most 0x10FE, pushed addresses at most 0x1000, the stack
within its capacity. -/
def Obligations.StepKeepsInvariant : Prop :=
  ∀ s t : State, EngineInv s → step s = .next t → EngineInv t

/-- Every schedule of host operations the model admits keeps the invariant. -/
def Obligations.ScheduleKeepsInvariant : Prop :=
  ∀ (ops : List HostOp) (b b1 : Boot) (s t : State), EngineInv s → hostRun b ops s = .next (b1, t) → EngineInv t

/-- Memories in canonical form that read alike at every address are equal. -/
def Obligations.CanonicalMemoryIsUnique : Prop :=
  ∀ m m1 : List Host.Cell, Memory.wf m = true → Memory.wf m1 = true →
    (∀ a < 4096, Memory.byte m a = Memory.byte m1 a) → m = m1

/-! ## Construction and the host's operations -/

/-- Spec R36, R125, R126: the state construction leaves, for every value of the parameters the spec leaves open. -/
def Obligations.ConstructionState : Prop :=
  ∀ p : Construction,
    (construct p).pc = 0x200 ∧ (construct p).stack = [] ∧ (construct p).status = .running ∧
    (∀ k : Fin 80, memRead (construct p) (0x050 + k.val) = .ok (p.font k)) ∧
    (∀ a < 4096, a < 0x050 ∨ 0x0A0 ≤ a → memRead (construct p) a = .ok (p.resetMem a)) ∧
    (∀ r, (construct p).V r = p.resetV r) ∧ (construct p).i = p.resetI ∧
    (construct p).dt = p.resetDt ∧ (construct p).st = p.resetSt ∧
    (∀ k < 2048, (construct p).cell k = p.resetDisplay.getLsbD k) ∧ (construct p).keys = p.resetKeys ∧
    (construct p).quirks = p.quirks ∧ (construct p).stackCapacity = p.stackCapacity

/-- The model's reset state is the engine constructed with the parameters the model names (logs 3 to 8). -/
def Obligations.ResetIsDefaultConstruction : Prop :=
  construct Construction.default = State.reset

/-- Spec R117: load writes the bytes from 0x200 on and nothing else, or, when they are more than 3584, raises
LoadTooLarge and changes nothing; it is admitted before the first step and not after one. The memory written to is
in canonical form, which every run keeps (EngineInv, ScheduleKeepsInvariant). -/
def Obligations.LoadWritesProgramOrRefuses : Prop :=
  ∀ (bytes : List Byte) (s : State),
    (Memory.wf s.mem = true → bytes.length ≤ 3584 →
      ∃ t, load bytes s = (.ok, t) ∧
        (∀ k (h : k < bytes.length), memRead t (0x200 + k) = .ok bytes[k]) ∧
        (∀ a, a < 0x200 ∨ 0x200 + bytes.length ≤ a → memRead t a = memRead s a) ∧
        t = { s with mem := t.mem }) ∧
    (3584 < bytes.length → load bytes s = (.fault (.loadTooLarge bytes.length), s)) ∧
    (∃ b, hostOp .fresh (.load bytes) s = .next (b, (load bytes s).2)) ∧
    (∀ b b1 t u, hostOp b .step s = .next (b1, t) → hostOp b1 (.load bytes) u = .refused .loadNotAdmitted)

/-- Spec R51: `load` is admitted only before the first step. A schedule that loads after a step, or after a load
that succeeded, is never completed. -/
def Obligations.LoadOnlyBeforeFirstStep : Prop :=
  ∀ (before between after : List HostOp) (bytes : List Byte) (b : Boot) (s : State) (r : Boot × State),
    (hostRun b (before ++ .step :: between ++ .load bytes :: after) s ≠ .next r) ∧
    (∀ first : List Byte, first.length ≤ 3584 →
      hostRun b (before ++ .load first :: between ++ .load bytes :: after) s ≠ .next r)

/-- Spec R112: a tick counts each timer down by one, clamped at zero, in any status, and changes nothing else. -/
def Obligations.TickCountsDownClamped : Prop :=
  ∀ s : State, (tickTimers s).dt.toNat = s.dt.toNat - 1 ∧ (tickTimers s).st.toNat = s.st.toNat - 1 ∧
    tickTimers s = { s with dt := (tickTimers s).dt, st := (tickTimers s).st }

/-- Spec R119: `set_pressed_keys` replaces the whole key set and changes nothing else. -/
def Obligations.SetKeysReplacesTheSet : Prop :=
  ∀ (s : State) (mask : BitVec 16) (v : Byte),
    keyHeld (setPressedKeys mask s) v = (decide (v.toNat < 16) && mask.getLsbD v.toNat) ∧
    setPressedKeys mask s = { s with keys := (setPressedKeys mask s).keys }

/-- Spec R134: once a run is stopped at `h`, every further step leaves the state unchanged, and a tick leaves the
run stopped at `h`. -/
def Obligations.StoppedRunStaysStopped : Prop :=
  ∀ (h : Addr12) (s : State), StoppedAt h s →
    (∀ k, Host.Core.run Sys2Proof.core k s = .next s) ∧ StoppedAt h (tickTimers s)
end

