-- ==== Sys2Proof/Laws/State.lean ====
section
/-! SUPPORT. The small lemmas of State's updates: one per field per update, so that no proof unfolds a record update. -/

namespace Sys2Proof.Machine

open Sys2Proof

/-! ### `setV` -/

@[simp] theorem State.setV_mem (s : State) (r : Reg) (b : Byte) : (s.setV r b).mem = s.mem := rfl
@[simp] theorem State.setV_v (s : State) (r : Reg) (b : Byte) : (s.setV r b).v = s.v.set r b := rfl
@[simp] theorem State.setV_i (s : State) (r : Reg) (b : Byte) : (s.setV r b).i = s.i := rfl
@[simp] theorem State.setV_pc (s : State) (r : Reg) (b : Byte) : (s.setV r b).pc = s.pc := rfl
@[simp] theorem State.setV_stack (s : State) (r : Reg) (b : Byte) : (s.setV r b).stack = s.stack := rfl
@[simp] theorem State.setV_dt (s : State) (r : Reg) (b : Byte) : (s.setV r b).dt = s.dt := rfl
@[simp] theorem State.setV_st (s : State) (r : Reg) (b : Byte) : (s.setV r b).st = s.st := rfl
@[simp] theorem State.setV_disp (s : State) (r : Reg) (b : Byte) : (s.setV r b).disp = s.disp := rfl
@[simp] theorem State.setV_keys (s : State) (r : Reg) (b : Byte) : (s.setV r b).keys = s.keys := rfl
@[simp] theorem State.setV_quirks (s : State) (r : Reg) (b : Byte) : (s.setV r b).quirks = s.quirks := rfl
@[simp] theorem State.setV_stackCapacity (s : State) (r : Reg) (b : Byte) : (s.setV r b).stackCapacity = s.stackCapacity := rfl
@[simp] theorem State.setV_status (s : State) (r : Reg) (b : Byte) : (s.setV r b).status = s.status := rfl
@[simp] theorem State.setV_randCount (s : State) (r : Reg) (b : Byte) : (s.setV r b).randCount = s.randCount := rfl

/-! ### `setI` -/

@[simp] theorem State.setI_mem (s : State) (w : Word) : (s.setI w).mem = s.mem := rfl
@[simp] theorem State.setI_v (s : State) (w : Word) : (s.setI w).v = s.v := rfl
@[simp] theorem State.setI_i (s : State) (w : Word) : (s.setI w).i = w := rfl
@[simp] theorem State.setI_pc (s : State) (w : Word) : (s.setI w).pc = s.pc := rfl
@[simp] theorem State.setI_stack (s : State) (w : Word) : (s.setI w).stack = s.stack := rfl
@[simp] theorem State.setI_dt (s : State) (w : Word) : (s.setI w).dt = s.dt := rfl
@[simp] theorem State.setI_st (s : State) (w : Word) : (s.setI w).st = s.st := rfl
@[simp] theorem State.setI_disp (s : State) (w : Word) : (s.setI w).disp = s.disp := rfl
@[simp] theorem State.setI_keys (s : State) (w : Word) : (s.setI w).keys = s.keys := rfl
@[simp] theorem State.setI_quirks (s : State) (w : Word) : (s.setI w).quirks = s.quirks := rfl
@[simp] theorem State.setI_stackCapacity (s : State) (w : Word) : (s.setI w).stackCapacity = s.stackCapacity := rfl
@[simp] theorem State.setI_status (s : State) (w : Word) : (s.setI w).status = s.status := rfl
@[simp] theorem State.setI_randCount (s : State) (w : Word) : (s.setI w).randCount = s.randCount := rfl

/-! ### `setPc` -/

@[simp] theorem State.setPc_mem (s : State) (w : Word) : (s.setPc w).mem = s.mem := rfl
@[simp] theorem State.setPc_v (s : State) (w : Word) : (s.setPc w).v = s.v := rfl
@[simp] theorem State.setPc_i (s : State) (w : Word) : (s.setPc w).i = s.i := rfl
@[simp] theorem State.setPc_pc (s : State) (w : Word) : (s.setPc w).pc = w := rfl
@[simp] theorem State.setPc_stack (s : State) (w : Word) : (s.setPc w).stack = s.stack := rfl
@[simp] theorem State.setPc_dt (s : State) (w : Word) : (s.setPc w).dt = s.dt := rfl
@[simp] theorem State.setPc_st (s : State) (w : Word) : (s.setPc w).st = s.st := rfl
@[simp] theorem State.setPc_disp (s : State) (w : Word) : (s.setPc w).disp = s.disp := rfl
@[simp] theorem State.setPc_keys (s : State) (w : Word) : (s.setPc w).keys = s.keys := rfl
@[simp] theorem State.setPc_quirks (s : State) (w : Word) : (s.setPc w).quirks = s.quirks := rfl
@[simp] theorem State.setPc_stackCapacity (s : State) (w : Word) : (s.setPc w).stackCapacity = s.stackCapacity := rfl
@[simp] theorem State.setPc_status (s : State) (w : Word) : (s.setPc w).status = s.status := rfl
@[simp] theorem State.setPc_randCount (s : State) (w : Word) : (s.setPc w).randCount = s.randCount := rfl

/-! ### `setStack` -/

@[simp] theorem State.setStack_mem (s : State) (l : List Word) : (s.setStack l).mem = s.mem := rfl
@[simp] theorem State.setStack_v (s : State) (l : List Word) : (s.setStack l).v = s.v := rfl
@[simp] theorem State.setStack_i (s : State) (l : List Word) : (s.setStack l).i = s.i := rfl
@[simp] theorem State.setStack_pc (s : State) (l : List Word) : (s.setStack l).pc = s.pc := rfl
@[simp] theorem State.setStack_stack (s : State) (l : List Word) : (s.setStack l).stack = l := rfl
@[simp] theorem State.setStack_dt (s : State) (l : List Word) : (s.setStack l).dt = s.dt := rfl
@[simp] theorem State.setStack_st (s : State) (l : List Word) : (s.setStack l).st = s.st := rfl
@[simp] theorem State.setStack_disp (s : State) (l : List Word) : (s.setStack l).disp = s.disp := rfl
@[simp] theorem State.setStack_keys (s : State) (l : List Word) : (s.setStack l).keys = s.keys := rfl
@[simp] theorem State.setStack_quirks (s : State) (l : List Word) : (s.setStack l).quirks = s.quirks := rfl
@[simp] theorem State.setStack_stackCapacity (s : State) (l : List Word) : (s.setStack l).stackCapacity = s.stackCapacity := rfl
@[simp] theorem State.setStack_status (s : State) (l : List Word) : (s.setStack l).status = s.status := rfl
@[simp] theorem State.setStack_randCount (s : State) (l : List Word) : (s.setStack l).randCount = s.randCount := rfl

/-! ### `setDt` -/

@[simp] theorem State.setDt_mem (s : State) (b : Byte) : (s.setDt b).mem = s.mem := rfl
@[simp] theorem State.setDt_v (s : State) (b : Byte) : (s.setDt b).v = s.v := rfl
@[simp] theorem State.setDt_i (s : State) (b : Byte) : (s.setDt b).i = s.i := rfl
@[simp] theorem State.setDt_pc (s : State) (b : Byte) : (s.setDt b).pc = s.pc := rfl
@[simp] theorem State.setDt_stack (s : State) (b : Byte) : (s.setDt b).stack = s.stack := rfl
@[simp] theorem State.setDt_dt (s : State) (b : Byte) : (s.setDt b).dt = b := rfl
@[simp] theorem State.setDt_st (s : State) (b : Byte) : (s.setDt b).st = s.st := rfl
@[simp] theorem State.setDt_disp (s : State) (b : Byte) : (s.setDt b).disp = s.disp := rfl
@[simp] theorem State.setDt_keys (s : State) (b : Byte) : (s.setDt b).keys = s.keys := rfl
@[simp] theorem State.setDt_quirks (s : State) (b : Byte) : (s.setDt b).quirks = s.quirks := rfl
@[simp] theorem State.setDt_stackCapacity (s : State) (b : Byte) : (s.setDt b).stackCapacity = s.stackCapacity := rfl
@[simp] theorem State.setDt_status (s : State) (b : Byte) : (s.setDt b).status = s.status := rfl
@[simp] theorem State.setDt_randCount (s : State) (b : Byte) : (s.setDt b).randCount = s.randCount := rfl

/-! ### `setSt` -/

@[simp] theorem State.setSt_mem (s : State) (b : Byte) : (s.setSt b).mem = s.mem := rfl
@[simp] theorem State.setSt_v (s : State) (b : Byte) : (s.setSt b).v = s.v := rfl
@[simp] theorem State.setSt_i (s : State) (b : Byte) : (s.setSt b).i = s.i := rfl
@[simp] theorem State.setSt_pc (s : State) (b : Byte) : (s.setSt b).pc = s.pc := rfl
@[simp] theorem State.setSt_stack (s : State) (b : Byte) : (s.setSt b).stack = s.stack := rfl
@[simp] theorem State.setSt_dt (s : State) (b : Byte) : (s.setSt b).dt = s.dt := rfl
@[simp] theorem State.setSt_st (s : State) (b : Byte) : (s.setSt b).st = b := rfl
@[simp] theorem State.setSt_disp (s : State) (b : Byte) : (s.setSt b).disp = s.disp := rfl
@[simp] theorem State.setSt_keys (s : State) (b : Byte) : (s.setSt b).keys = s.keys := rfl
@[simp] theorem State.setSt_quirks (s : State) (b : Byte) : (s.setSt b).quirks = s.quirks := rfl
@[simp] theorem State.setSt_stackCapacity (s : State) (b : Byte) : (s.setSt b).stackCapacity = s.stackCapacity := rfl
@[simp] theorem State.setSt_status (s : State) (b : Byte) : (s.setSt b).status = s.status := rfl
@[simp] theorem State.setSt_randCount (s : State) (b : Byte) : (s.setSt b).randCount = s.randCount := rfl

/-! ### `setDisp` -/

@[simp] theorem State.setDisp_mem (s : State) (d : BitVec 2048) : (s.setDisp d).mem = s.mem := rfl
@[simp] theorem State.setDisp_v (s : State) (d : BitVec 2048) : (s.setDisp d).v = s.v := rfl
@[simp] theorem State.setDisp_i (s : State) (d : BitVec 2048) : (s.setDisp d).i = s.i := rfl
@[simp] theorem State.setDisp_pc (s : State) (d : BitVec 2048) : (s.setDisp d).pc = s.pc := rfl
@[simp] theorem State.setDisp_stack (s : State) (d : BitVec 2048) : (s.setDisp d).stack = s.stack := rfl
@[simp] theorem State.setDisp_dt (s : State) (d : BitVec 2048) : (s.setDisp d).dt = s.dt := rfl
@[simp] theorem State.setDisp_st (s : State) (d : BitVec 2048) : (s.setDisp d).st = s.st := rfl
@[simp] theorem State.setDisp_disp (s : State) (d : BitVec 2048) : (s.setDisp d).disp = d := rfl
@[simp] theorem State.setDisp_keys (s : State) (d : BitVec 2048) : (s.setDisp d).keys = s.keys := rfl
@[simp] theorem State.setDisp_quirks (s : State) (d : BitVec 2048) : (s.setDisp d).quirks = s.quirks := rfl
@[simp] theorem State.setDisp_stackCapacity (s : State) (d : BitVec 2048) : (s.setDisp d).stackCapacity = s.stackCapacity := rfl
@[simp] theorem State.setDisp_status (s : State) (d : BitVec 2048) : (s.setDisp d).status = s.status := rfl
@[simp] theorem State.setDisp_randCount (s : State) (d : BitVec 2048) : (s.setDisp d).randCount = s.randCount := rfl

/-! ### `setKeys` -/

@[simp] theorem State.setKeys_mem (s : State) (k : BitVec 16) : (s.setKeys k).mem = s.mem := rfl
@[simp] theorem State.setKeys_v (s : State) (k : BitVec 16) : (s.setKeys k).v = s.v := rfl
@[simp] theorem State.setKeys_i (s : State) (k : BitVec 16) : (s.setKeys k).i = s.i := rfl
@[simp] theorem State.setKeys_pc (s : State) (k : BitVec 16) : (s.setKeys k).pc = s.pc := rfl
@[simp] theorem State.setKeys_stack (s : State) (k : BitVec 16) : (s.setKeys k).stack = s.stack := rfl
@[simp] theorem State.setKeys_dt (s : State) (k : BitVec 16) : (s.setKeys k).dt = s.dt := rfl
@[simp] theorem State.setKeys_st (s : State) (k : BitVec 16) : (s.setKeys k).st = s.st := rfl
@[simp] theorem State.setKeys_disp (s : State) (k : BitVec 16) : (s.setKeys k).disp = s.disp := rfl
@[simp] theorem State.setKeys_keys (s : State) (k : BitVec 16) : (s.setKeys k).keys = k := rfl
@[simp] theorem State.setKeys_quirks (s : State) (k : BitVec 16) : (s.setKeys k).quirks = s.quirks := rfl
@[simp] theorem State.setKeys_stackCapacity (s : State) (k : BitVec 16) : (s.setKeys k).stackCapacity = s.stackCapacity := rfl
@[simp] theorem State.setKeys_status (s : State) (k : BitVec 16) : (s.setKeys k).status = s.status := rfl
@[simp] theorem State.setKeys_randCount (s : State) (k : BitVec 16) : (s.setKeys k).randCount = s.randCount := rfl

/-! ### `setStatus` -/

@[simp] theorem State.setStatus_mem (s : State) (x : Status) : (s.setStatus x).mem = s.mem := rfl
@[simp] theorem State.setStatus_v (s : State) (x : Status) : (s.setStatus x).v = s.v := rfl
@[simp] theorem State.setStatus_i (s : State) (x : Status) : (s.setStatus x).i = s.i := rfl
@[simp] theorem State.setStatus_pc (s : State) (x : Status) : (s.setStatus x).pc = s.pc := rfl
@[simp] theorem State.setStatus_stack (s : State) (x : Status) : (s.setStatus x).stack = s.stack := rfl
@[simp] theorem State.setStatus_dt (s : State) (x : Status) : (s.setStatus x).dt = s.dt := rfl
@[simp] theorem State.setStatus_st (s : State) (x : Status) : (s.setStatus x).st = s.st := rfl
@[simp] theorem State.setStatus_disp (s : State) (x : Status) : (s.setStatus x).disp = s.disp := rfl
@[simp] theorem State.setStatus_keys (s : State) (x : Status) : (s.setStatus x).keys = s.keys := rfl
@[simp] theorem State.setStatus_quirks (s : State) (x : Status) : (s.setStatus x).quirks = s.quirks := rfl
@[simp] theorem State.setStatus_stackCapacity (s : State) (x : Status) : (s.setStatus x).stackCapacity = s.stackCapacity := rfl
@[simp] theorem State.setStatus_status (s : State) (x : Status) : (s.setStatus x).status = x := rfl
@[simp] theorem State.setStatus_randCount (s : State) (x : Status) : (s.setStatus x).randCount = s.randCount := rfl

/-! ### `setMem` -/

@[simp] theorem State.setMem_mem (s : State) (m : List Host.Cell) : (s.setMem m).mem = m := rfl
@[simp] theorem State.setMem_v (s : State) (m : List Host.Cell) : (s.setMem m).v = s.v := rfl
@[simp] theorem State.setMem_i (s : State) (m : List Host.Cell) : (s.setMem m).i = s.i := rfl
@[simp] theorem State.setMem_pc (s : State) (m : List Host.Cell) : (s.setMem m).pc = s.pc := rfl
@[simp] theorem State.setMem_stack (s : State) (m : List Host.Cell) : (s.setMem m).stack = s.stack := rfl
@[simp] theorem State.setMem_dt (s : State) (m : List Host.Cell) : (s.setMem m).dt = s.dt := rfl
@[simp] theorem State.setMem_st (s : State) (m : List Host.Cell) : (s.setMem m).st = s.st := rfl
@[simp] theorem State.setMem_disp (s : State) (m : List Host.Cell) : (s.setMem m).disp = s.disp := rfl
@[simp] theorem State.setMem_keys (s : State) (m : List Host.Cell) : (s.setMem m).keys = s.keys := rfl
@[simp] theorem State.setMem_quirks (s : State) (m : List Host.Cell) : (s.setMem m).quirks = s.quirks := rfl
@[simp] theorem State.setMem_stackCapacity (s : State) (m : List Host.Cell) : (s.setMem m).stackCapacity = s.stackCapacity := rfl
@[simp] theorem State.setMem_status (s : State) (m : List Host.Cell) : (s.setMem m).status = s.status := rfl
@[simp] theorem State.setMem_randCount (s : State) (m : List Host.Cell) : (s.setMem m).randCount = s.randCount := rfl

/-! ### `nextRand` -/

@[simp] theorem State.nextRand_mem (s : State) : (s.nextRand).mem = s.mem := rfl
@[simp] theorem State.nextRand_v (s : State) : (s.nextRand).v = s.v := rfl
@[simp] theorem State.nextRand_i (s : State) : (s.nextRand).i = s.i := rfl
@[simp] theorem State.nextRand_pc (s : State) : (s.nextRand).pc = s.pc := rfl
@[simp] theorem State.nextRand_stack (s : State) : (s.nextRand).stack = s.stack := rfl
@[simp] theorem State.nextRand_dt (s : State) : (s.nextRand).dt = s.dt := rfl
@[simp] theorem State.nextRand_st (s : State) : (s.nextRand).st = s.st := rfl
@[simp] theorem State.nextRand_disp (s : State) : (s.nextRand).disp = s.disp := rfl
@[simp] theorem State.nextRand_keys (s : State) : (s.nextRand).keys = s.keys := rfl
@[simp] theorem State.nextRand_quirks (s : State) : (s.nextRand).quirks = s.quirks := rfl
@[simp] theorem State.nextRand_stackCapacity (s : State) : (s.nextRand).stackCapacity = s.stackCapacity := rfl
@[simp] theorem State.nextRand_status (s : State) : (s.nextRand).status = s.status := rfl
@[simp] theorem State.nextRand_randCount (s : State) : (s.nextRand).randCount = s.randCount + 1 := rfl

/-! ### `setCell` -/

@[simp] theorem State.setCell_mem (s : State) (k : Nat) (b : Bool) : (s.setCell k b).mem = s.mem := rfl
@[simp] theorem State.setCell_v (s : State) (k : Nat) (b : Bool) : (s.setCell k b).v = s.v := rfl
@[simp] theorem State.setCell_i (s : State) (k : Nat) (b : Bool) : (s.setCell k b).i = s.i := rfl
@[simp] theorem State.setCell_pc (s : State) (k : Nat) (b : Bool) : (s.setCell k b).pc = s.pc := rfl
@[simp] theorem State.setCell_stack (s : State) (k : Nat) (b : Bool) : (s.setCell k b).stack = s.stack := rfl
@[simp] theorem State.setCell_dt (s : State) (k : Nat) (b : Bool) : (s.setCell k b).dt = s.dt := rfl
@[simp] theorem State.setCell_st (s : State) (k : Nat) (b : Bool) : (s.setCell k b).st = s.st := rfl
@[simp] theorem State.setCell_disp (s : State) (k : Nat) (b : Bool) : (s.setCell k b).disp = if s.disp.getLsbD k = b then s.disp else s.disp ^^^ BitVec.twoPow 2048 k := rfl
@[simp] theorem State.setCell_keys (s : State) (k : Nat) (b : Bool) : (s.setCell k b).keys = s.keys := rfl
@[simp] theorem State.setCell_quirks (s : State) (k : Nat) (b : Bool) : (s.setCell k b).quirks = s.quirks := rfl
@[simp] theorem State.setCell_stackCapacity (s : State) (k : Nat) (b : Bool) : (s.setCell k b).stackCapacity = s.stackCapacity := rfl
@[simp] theorem State.setCell_status (s : State) (k : Nat) (b : Bool) : (s.setCell k b).status = s.status := rfl
@[simp] theorem State.setCell_randCount (s : State) (k : Nat) (b : Bool) : (s.setCell k b).randCount = s.randCount := rfl

/-! ### `advance` -/

@[simp] theorem State.advance_mem (s : State) : (s.advance).mem = s.mem := rfl
@[simp] theorem State.advance_v (s : State) : (s.advance).v = s.v := rfl
@[simp] theorem State.advance_i (s : State) : (s.advance).i = s.i := rfl
@[simp] theorem State.advance_pc (s : State) : (s.advance).pc = s.pc + 2 := rfl
@[simp] theorem State.advance_stack (s : State) : (s.advance).stack = s.stack := rfl
@[simp] theorem State.advance_dt (s : State) : (s.advance).dt = s.dt := rfl
@[simp] theorem State.advance_st (s : State) : (s.advance).st = s.st := rfl
@[simp] theorem State.advance_disp (s : State) : (s.advance).disp = s.disp := rfl
@[simp] theorem State.advance_keys (s : State) : (s.advance).keys = s.keys := rfl
@[simp] theorem State.advance_quirks (s : State) : (s.advance).quirks = s.quirks := rfl
@[simp] theorem State.advance_stackCapacity (s : State) : (s.advance).stackCapacity = s.stackCapacity := rfl
@[simp] theorem State.advance_status (s : State) : (s.advance).status = s.status := rfl
@[simp] theorem State.advance_randCount (s : State) : (s.advance).randCount = s.randCount := rfl

/-! ### Reading a register or a cell after an update -/

/-- A register read after a register write (spec R13). -/
theorem State.setV_V (s : State) (r q : Reg) (b : Byte) : (s.setV r b).V q = if q = r then b else s.V q := by
  simp only [State.V, State.setV_v, Fin.getElem_fin, Vector.getElem_set, Fin.ext_iff, eq_comm]

@[simp] theorem State.setV_V_same (s : State) (r : Reg) (b : Byte) : (s.setV r b).V r = b := by
  simp [State.setV_V]

theorem State.setV_V_other (s : State) {r q : Reg} (b : Byte) (h : q ≠ r) : (s.setV r b).V q = s.V q := by
  simp [State.setV_V, h]

/-- A display cell read after a cell write (spec R29). -/
theorem State.setCell_cell (s : State) (j k : Nat) (b : Bool) :
    (s.setCell j b).cell k = if k = j ∧ j < 2048 then b else s.cell k := by
  unfold State.cell
  rw [State.setCell_disp]
  by_cases hb : s.disp.getLsbD j = b
  · rw [if_pos hb]
    split
    · rename_i h
      rw [h.1, hb]
    · rfl
  · rw [if_neg hb, BitVec.getLsbD_xor, BitVec.getLsbD_twoPow]
    by_cases h : k = j ∧ j < 2048
    · obtain ⟨rfl, hj⟩ := h
      cases h1 : s.disp.getLsbD k <;> cases b <;> simp_all
    · have h1 : (decide (j < 2048) && decide (j = k)) = false := by
        simp only [Bool.and_eq_false_iff, decide_eq_false_iff_not]
        by_cases hj : j < 2048
        · exact .inr fun e => h ⟨e.symm, hj⟩
        · exact .inl hj
      rw [h1, if_neg h, Bool.xor_false]

@[simp] theorem State.setI_V (s : State) (w : Word) (q : Reg) : (s.setI w).V q = s.V q := rfl
@[simp] theorem State.setI_cell (s : State) (w : Word) (j : Nat) : (s.setI w).cell j = s.cell j := rfl
@[simp] theorem State.setPc_V (s : State) (w : Word) (q : Reg) : (s.setPc w).V q = s.V q := rfl
@[simp] theorem State.setPc_cell (s : State) (w : Word) (j : Nat) : (s.setPc w).cell j = s.cell j := rfl
@[simp] theorem State.setStack_V (s : State) (l : List Word) (q : Reg) : (s.setStack l).V q = s.V q := rfl
@[simp] theorem State.setStack_cell (s : State) (l : List Word) (j : Nat) : (s.setStack l).cell j = s.cell j := rfl
@[simp] theorem State.setDt_V (s : State) (b : Byte) (q : Reg) : (s.setDt b).V q = s.V q := rfl
@[simp] theorem State.setDt_cell (s : State) (b : Byte) (j : Nat) : (s.setDt b).cell j = s.cell j := rfl
@[simp] theorem State.setSt_V (s : State) (b : Byte) (q : Reg) : (s.setSt b).V q = s.V q := rfl
@[simp] theorem State.setSt_cell (s : State) (b : Byte) (j : Nat) : (s.setSt b).cell j = s.cell j := rfl
@[simp] theorem State.setDisp_V (s : State) (d : BitVec 2048) (q : Reg) : (s.setDisp d).V q = s.V q := rfl
@[simp] theorem State.setKeys_V (s : State) (k : BitVec 16) (q : Reg) : (s.setKeys k).V q = s.V q := rfl
@[simp] theorem State.setKeys_cell (s : State) (k : BitVec 16) (j : Nat) : (s.setKeys k).cell j = s.cell j := rfl
@[simp] theorem State.setStatus_V (s : State) (x : Status) (q : Reg) : (s.setStatus x).V q = s.V q := rfl
@[simp] theorem State.setStatus_cell (s : State) (x : Status) (j : Nat) : (s.setStatus x).cell j = s.cell j := rfl
@[simp] theorem State.setMem_V (s : State) (m : List Host.Cell) (q : Reg) : (s.setMem m).V q = s.V q := rfl
@[simp] theorem State.setMem_cell (s : State) (m : List Host.Cell) (j : Nat) : (s.setMem m).cell j = s.cell j := rfl
@[simp] theorem State.nextRand_V (s : State) (q : Reg) : (s.nextRand).V q = s.V q := rfl
@[simp] theorem State.nextRand_cell (s : State) (j : Nat) : (s.nextRand).cell j = s.cell j := rfl
@[simp] theorem State.setCell_V (s : State) (k : Nat) (b : Bool) (q : Reg) : (s.setCell k b).V q = s.V q := rfl
@[simp] theorem State.advance_V (s : State) (q : Reg) : (s.advance).V q = s.V q := rfl
@[simp] theorem State.advance_cell (s : State) (j : Nat) : (s.advance).cell j = s.cell j := rfl

end Sys2Proof.Machine
end

