-- ==== Sys2Proof/Laws/Memory.lean ====
section
/-! SUPPORT. The laws of memory: a read after a write, and the canonical form every memory operation keeps. -/

namespace Sys2Proof.Machine

open Sys2Proof

/-- The canonical form, one cell at a time. -/
theorem Memory.wfFrom_cons (lo a : Nat) (v : Byte) (rest : List Host.Cell) :
    Memory.wfFrom lo ((a, v) :: rest) = true ↔
      lo ≤ a ∧ a < 4096 ∧ v ≠ Memory.unlisted a ∧ Memory.wfFrom (a + 1) rest = true := by
  simp [Memory.wfFrom, and_assoc]

@[simp] theorem Memory.wfFrom_nil (lo : Nat) : Memory.wfFrom lo [] = true := rfl

/-- A list canonical from an address on is canonical from any lower one. -/
theorem Memory.wfFrom_mono {lo lo1 : Nat} (h : lo1 ≤ lo) (m : List Host.Cell) (hm : Memory.wfFrom lo m = true) :
    Memory.wfFrom lo1 m = true := by
  cases m with
  | nil => rfl
  | cons c rest =>
    obtain ⟨a, v⟩ := c
    rw [Memory.wfFrom_cons] at hm ⊢
    exact ⟨h.trans hm.1, hm.2⟩

/-- Below its first address a canonical list lists nothing. -/
theorem Memory.byte_below {lo a : Nat} (m : List Host.Cell) (hm : Memory.wfFrom lo m = true) (h : a < lo) :
    Memory.byte m a = Memory.unlisted a := by
  induction m generalizing lo with
  | nil => rfl
  | cons c rest ih =>
    obtain ⟨b, v⟩ := c
    rw [Memory.wfFrom_cons] at hm
    have hne : a ≠ b := by omega
    simp only [Memory.byte, hne, if_false]
    exact ih hm.2.2.2 (by omega)

/-- Putting a cell before a canonical list keeps the form. -/
theorem Memory.wfFrom_cell {lo a : Nat} (v : Byte) (rest : List Host.Cell) (hlo : lo ≤ a) (ha : a < 4096)
    (hrest : Memory.wfFrom (a + 1) rest = true) : Memory.wfFrom lo (Memory.cell a v rest) = true := by
  unfold Memory.cell
  split
  · exact Memory.wfFrom_mono (by omega) rest hrest
  · rename_i hv
    rw [Memory.wfFrom_cons]
    exact ⟨hlo, ha, hv, hrest⟩

/-- The byte under a cell just put in place, and every byte beside it. -/
theorem Memory.byte_cell {a : Nat} (v : Byte) (rest : List Host.Cell) (hrest : Memory.wfFrom (a + 1) rest = true)
    (b : Nat) : Memory.byte (Memory.cell a v rest) b = if b = a then v else Memory.byte rest b := by
  unfold Memory.cell
  split
  · rename_i hv
    split
    · rename_i hb
      rw [hb, Memory.byte_below rest hrest (by omega), hv]
    · rfl
  · rfl

/-- `insert` keeps the canonical form. -/
theorem Memory.wfFrom_insert {lo a : Nat} (v : Byte) (m : List Host.Cell) (hm : Memory.wfFrom lo m = true)
    (hlo : lo ≤ a) (ha : a < 4096) : Memory.wfFrom lo (Memory.insert a v m) = true := by
  induction m generalizing lo with
  | nil => exact Memory.wfFrom_cell v [] hlo ha rfl
  | cons c rest ih =>
    obtain ⟨b, u⟩ := c
    have hc := (Memory.wfFrom_cons lo b u rest).mp hm
    unfold Memory.insert
    split
    · exact Memory.wfFrom_cell v _ hlo ha ((Memory.wfFrom_cons _ b u rest).mpr ⟨by omega, hc.2⟩)
    · split
      · rename_i hab
        exact Memory.wfFrom_cell v rest hlo ha (hab ▸ hc.2.2.2)
      · rw [Memory.wfFrom_cons]
        exact ⟨hc.1, hc.2.1, hc.2.2.1, ih hc.2.2.2 (by omega)⟩

/-- A read after `insert` on a canonical list. -/
theorem Memory.byte_insert {lo a : Nat} (v : Byte) (m : List Host.Cell) (hm : Memory.wfFrom lo m = true) (b : Nat) :
    Memory.byte (Memory.insert a v m) b = if b = a then v else Memory.byte m b := by
  induction m generalizing lo with
  | nil => exact Memory.byte_cell v [] rfl b
  | cons c rest ih =>
    obtain ⟨d, u⟩ := c
    have hc := (Memory.wfFrom_cons lo d u rest).mp hm
    unfold Memory.insert
    split
    · rename_i had
      exact Memory.byte_cell v _ ((Memory.wfFrom_cons _ d u rest).mpr ⟨by omega, hc.2⟩) b
    · split
      · rename_i had
        subst had
        rw [Memory.byte_cell v rest hc.2.2.2 b]
        by_cases hb : b = a <;> simp [hb, Memory.byte]
      · rename_i h1 h2
        simp only [Memory.byte, ih hc.2.2.2]
        by_cases hb : b = d
        · have hba : b ≠ a := by omega
          simp [hb, show ¬ d = a by omega]
        · simp [hb]

/-- `MemWrite` keeps the canonical form (spec R46). -/
theorem Memory.wf_write (m : List Host.Cell) (a : Nat) (v : Byte) (hm : Memory.wf m = true) :
    Memory.wf (Memory.write m a v) = true := by
  unfold Memory.write
  split
  · rename_i ha
    exact Memory.wfFrom_insert v m hm (Nat.zero_le a) ha
  · exact hm

/-- A read after `MemWrite`: the value at the address written, the old byte elsewhere (spec R46, R49). -/
theorem Memory.byte_write (m : List Host.Cell) (a : Nat) (v : Byte) (hm : Memory.wf m = true) (ha : a < 4096) (b : Nat) :
    Memory.byte (Memory.write m a v) b = if b = a then v else Memory.byte m b := by
  have h : a < Config.memSize := ha
  simp only [Memory.write, if_pos h]
  exact Memory.byte_insert v m hm b

/-- The reset memory is in canonical form. -/
theorem Memory.wf_reset : Memory.wf State.reset.mem = true := rfl

/-- Placing a word for the next fetch keeps the canonical form. -/
theorem placeWord_wf (s : State) (w : Word) (h : Memory.wf s.mem = true) : Memory.wf (placeWord s w).mem = true :=
  Memory.wf_write _ _ _ (Memory.wf_write _ _ _ h)

end Sys2Proof.Machine
end

