-- ==== Sys2Proof/Laws/Ops.lean ====
section
/-! SUPPORT. One lemma per shared operation, saying once everything it can do. -/

namespace Sys2Proof.Machine

open Sys2Proof

/-! ## Memory reads and the fetch -/

/-- `MemRead` inside memory (spec R43). -/
theorem memRead_inside (s : State) {a : Nat} (h : a < 4096) : memRead s a = .ok (Memory.byte s.mem a) := by
  have h1 : a < Config.memSize := h
  simp [memRead, h1]

/-- `MemRead` outside memory (spec R43). -/
theorem memRead_outside (s : State) {a : Nat} (h : 4096 ≤ a) : memRead s a = .error (.outOfBounds a) := by
  have h1 : ¬ a < Config.memSize := by simp only [Config.memSize]; omega
  simp [memRead, h1]

/-- What a fetch can answer (spec R44). -/
theorem fetch_cases (s : State) :
    (s.pc.toNat ≤ 0xFFE ∧
      fetch s = .ok (wordOfBytes (Memory.byte s.mem s.pc.toNat) (Memory.byte s.mem (s.pc.toNat + 1)))) ∨
    (s.pc.toNat = 0xFFF ∧ fetch s = .error (.outOfBounds 0x1000)) ∨
    (0x1000 ≤ s.pc.toNat ∧ fetch s = .error (.outOfBounds s.pc.toNat)) := by
  unfold fetch
  by_cases h0 : s.pc.toNat < 4096
  · rw [memRead_inside s h0]
    by_cases h1 : s.pc.toNat + 1 < 4096
    · exact .inl ⟨by omega, by rw [memRead_inside s h1]⟩
    · have h2 : s.pc.toNat = 0xFFF := by omega
      exact .inr (.inl ⟨h2, by rw [memRead_outside s (by omega), h2]⟩)
  · exact .inr (.inr ⟨by omega, by rw [memRead_outside s (by omega)]⟩)

/-- The fetch reads only memory and pc. -/
theorem fetch_congr {s t : State} (hm : t.mem = s.mem) (hp : t.pc = s.pc) : fetch t = fetch s := by
  simp [fetch, memRead, hm, hp]

/-! ## The call stack, raising and skipping -/

/-- `push`: overflow on a full stack, the value on the top otherwise (spec R27). -/
theorem push_cases (s : State) (v : Word) :
    (s.stackFull = true ∧ push s v = .error (.stackOverflow s.fetchAddr)) ∨
    (s.stackFull = false ∧ push s v = .ok (s.setStack (v :: s.stack))) := by
  cases h : s.stackFull <;> simp [push, h]

/-- A stack is not full exactly when its depth is below its capacity, if it has one (spec R27). -/
theorem stackFull_eq_false (s : State) :
    s.stackFull = false ↔ ∀ c, s.stackCapacity = some c → s.stack.length < c := by
  unfold State.stackFull
  cases h : s.stackCapacity <;> simp

/-- `pop`: underflow on an empty stack, the top value otherwise (spec R28). -/
theorem pop_cases (s : State) :
    (s.stack = [] ∧ pop s = .error (.stackUnderflow s.fetchAddr)) ∨
    (∃ v rest, s.stack = v :: rest ∧ pop s = .ok (v, s.setStack rest)) := by
  cases h : s.stack <;> simp [pop, h]

/-- Raising answers a next state that differs in the status alone (spec R104). -/
theorem raise_next (s : State) (e : FatalError) : raise s e = .next (s.setStatus (.faulted e)) := rfl

@[simp] theorem orRaise_ok (s : State) {α : Type} (a : α) (k : α → Result) : orRaise s (.ok a) k = k a := rfl

@[simp] theorem orRaise_error (s : State) {α : Type} (e : FatalError) (k : α → Result) :
    orRaise s (.error e) k = .next (s.setStatus (.faulted e)) := rfl

/-- A skip answers one of two states (spec R88). -/
theorem skipIf_cases (c : Bool) (s : State) :
    (c = true ∧ skipIf c s = .next s.advance) ∨ (c = false ∧ skipIf c s = .next s) := by
  cases c <;> simp [skipIf]

/-- The state after a taken skip or a fetch advance, seen at pc. -/
theorem fetchAddr_advance (s : State) : s.advance.fetchAddr = s.pc := by
  simp only [State.fetchAddr, State.advance_pc]
  exact BitVec.add_sub_cancel _ _

/-! ## Results and flags -/

/-- The registers after a result and its flag are written (spec R16): the flag wins in V[0xF]. -/
theorem writeThenFlag_V (x : Reg) (result flag : Byte) (s : State) (q : Reg) :
    (writeThenFlag x result flag s).V q = if q = VF then flag else if q = x then result else s.V q := by
  simp only [writeThenFlag, State.setV_V]

/-- Writing a result and its flag changes registers alone. -/
theorem writeThenFlag_frame (x : Reg) (result flag : Byte) (s : State) :
    writeThenFlag x result flag s = { s with v := (writeThenFlag x result flag s).v } := rfl

/-- After the optional copy of a shift V[x] is the shift's source (spec R76, R77). -/
theorem copyForShift_V (x y : Reg) (s : State) (q : Reg) :
    (copyForShift x y s).V q = if s.quirks.useYInShift = true ∧ q = x then s.V y else s.V q := by
  unfold copyForShift
  split <;> simp [State.setV_V, *]

/-- The optional copy of a shift changes registers alone. -/
theorem copyForShift_frame (x y : Reg) (s : State) :
    copyForShift x y s = { s with v := (copyForShift x y s).v } := by
  unfold copyForShift
  split <;> rfl

/-- A flag is 1 where its condition holds and 0 elsewhere. -/
theorem flagByte_decide (p : Prop) [Decidable p] : flagByte (decide p) = if p then 1 else 0 := by
  unfold flagByte
  by_cases h : p <;> simp [h]

/-- A 12-bit address keeps its value in 16 bits (spec R58). -/
theorem zext12_toNat (nnn : Addr12) : (zext12 nnn).toNat = nnn.toNat := by
  have h := nnn.isLt
  unfold zext12
  rw [BitVec.toNat_setWidth]
  omega

/-- A sum stored modulo 256 (spec R80). -/
theorem sumByte_toNat (a b : Byte) : (sumByte a b).toNat = (a.toNat + b.toNat) % 256 := by
  simp [sumByte, exactSum]

/-- A difference stored modulo 256 (spec R80). -/
theorem diffByte_toNat (a b : Byte) : ((diffByte a b).toNat : Int) = ((a.toNat : Int) - (b.toNat : Int)) % 256 := by
  unfold diffByte
  rw [BitVec.toNat_ofInt]
  omega

/-- The bit a right shift shifts out is bit 0 (spec R76). -/
theorem shiftedOutRight_toNat (v : Byte) : (shiftedOutRight v).toNat = v.toNat % 2 := by
  have h : ∀ v : Byte, (shiftedOutRight v).toNat = v.toNat % 2 := by decide
  exact h v

/-- The bit a left shift shifts out is bit 7, as 0 or 1 (spec R77). -/
theorem shiftedOutLeft_toNat (v : Byte) : (shiftedOutLeft v).toNat = v.toNat / 128 := by
  have h : ∀ v : Byte, (shiftedOutLeft v).toNat = v.toNat / 128 := by decide
  exact h v

/-- A key id is held only below 0x10 (spec R97). -/
theorem keyHeld_eq (s : State) (v : Byte) : keyHeld s v = (decide (v.toNat < 16) && s.keys.getLsbD v.toNat) := by
  unfold keyHeld
  by_cases h : v.toNat < 16
  · simp [h]
  · simp [h, BitVec.getLsbD_of_ge _ _ (by omega : 16 ≤ v.toNat)]

/-! ## Drawing -/

/-- No row lies outside memory exactly when each one lies inside (spec R92). -/
theorem firstRowOutside_eq_none (s : State) (n : Nat) :
    firstRowOutside s n = none ↔ ∀ r < n, s.i.toNat + r < 4096 := by
  unfold firstRowOutside spriteAddr
  simp

/-- A row reported outside memory is one of the sprite's, lies outside, and every row before it inside (spec R92). -/
theorem firstRowOutside_some (s : State) (n a : Nat) (h : firstRowOutside s n = some a) :
    ∃ r, r < n ∧ a = s.i.toNat + r ∧ 4096 ≤ a := by
  unfold firstRowOutside at h
  have h1 := List.find?_some h
  have h2 := List.mem_of_find?_eq_some h
  simp only [List.mem_map, List.mem_range] at h2
  obtain ⟨r, hr, rfl⟩ := h2
  exact ⟨r, hr, rfl, by simpa using h1⟩

/-- Where some row lies outside memory the least one is reported (spec R92). -/
theorem firstRowOutside_least (s : State) (n r : Nat) (hr : r < n) (hout : 4096 ≤ s.i.toNat + r)
    (hin : ∀ q < r, s.i.toNat + q < 4096) : firstRowOutside s n = some (s.i.toNat + r) := by
  unfold firstRowOutside
  rw [List.find?_map, show (some (s.i.toNat + r)) = Option.map (spriteAddr s) (some r) from rfl]
  congr 1
  rw [List.find?_range_eq_some]
  refine ⟨decide_eq_true hout, List.mem_range.mpr hr, fun q hq => ?_⟩
  have h := hin q hq
  have h1 : ¬ Config.memSize ≤ spriteAddr s q := by
    simp only [spriteAddr, Config.memSize]
    omega
  simpa using h1

/-- Toggling a cell changes the display and, on a lit cell, V[0xF] (spec R92). -/
theorem toggleCell_frame (px py : Nat) (s : State) :
    toggleCell px py s = { s with v := (toggleCell px py s).v, disp := (toggleCell px py s).disp } := by
  unfold toggleCell
  dsimp only
  split <;> rfl

/-- Every cell after one is toggled (spec R92). -/
theorem toggleCell_cell (px py : Nat) (s : State) (k : Nat) :
    (toggleCell px py s).cell k = if k = cellIndex px py ∧ cellIndex px py < 2048 then !s.cell k else s.cell k := by
  unfold toggleCell
  dsimp only
  rw [State.setCell_cell]
  by_cases h : k = cellIndex px py ∧ cellIndex px py < 2048
  · rw [if_pos h, if_pos h, h.1]
  · rw [if_neg h, if_neg h]
    split <;> rfl

/-- Every register after a cell is toggled: V[0xF] is raised on a lit cell, and nothing else is written (spec R92). -/
theorem toggleCell_V (px py : Nat) (s : State) (q : Reg) :
    (toggleCell px py s).V q = if q = VF ∧ s.cell (cellIndex px py) = true then 1 else s.V q := by
  unfold toggleCell
  dsimp only
  rw [State.setCell_V]
  by_cases h : s.cell (cellIndex px py) = true
  · simp [h, State.setV_V]
  · simp [h]

/-- Drawing columns changes registers and the display alone. -/
theorem drawColumns_frame (b : Byte) (x0 py : Nat) (cs : List Nat) (s : State) :
    drawColumns b x0 py cs s =
      { s with v := (drawColumns b x0 py cs s).v, disp := (drawColumns b x0 py cs s).disp } := by
  induction cs generalizing s with
  | nil => rfl
  | cons c cs ih =>
    unfold drawColumns
    split
    · rfl
    · split
      · have h1 := ih (toggleCell (x0 + c) py s)
        have h2 := toggleCell_frame (x0 + c) py s
        rw [h1]
        generalize drawColumns b x0 py cs (toggleCell (x0 + c) py s) = t
        rw [h2]
      · exact ih s

/-- Drawing rows changes registers and the display alone. -/
theorem drawRows_frame (x0 y0 : Nat) (rs : List Nat) (s : State) :
    drawRows x0 y0 rs s = { s with v := (drawRows x0 y0 rs s).v, disp := (drawRows x0 y0 rs s).disp } := by
  induction rs generalizing s with
  | nil => rfl
  | cons r rs ih =>
    unfold drawRows
    split
    · rfl
    · have h2 := drawColumns_frame (Memory.byte s.mem (spriteAddr s r)) x0 (y0 + r) (List.range 8) s
      generalize drawColumns (Memory.byte s.mem (spriteAddr s r)) x0 (y0 + r) (List.range 8) s = u at h2 ⊢
      have h1 := ih u
      generalize drawRows x0 y0 rs u = t at h1 ⊢
      rw [h1, h2]

/-- Drawing writes no register but V[0xF] (spec R14). -/
theorem drawColumns_V_other (b : Byte) (x0 py : Nat) (cs : List Nat) (s : State) {q : Reg} (hq : q ≠ VF) :
    (drawColumns b x0 py cs s).V q = s.V q := by
  induction cs generalizing s with
  | nil => rfl
  | cons c cs ih =>
    unfold drawColumns
    split
    · rfl
    · rw [ih]
      split
      · simp [toggleCell_V, hq]
      · rfl

/-- Drawing writes no register but V[0xF] (spec R14). -/
theorem drawRows_V_other (x0 y0 : Nat) (rs : List Nat) (s : State) {q : Reg} (hq : q ≠ VF) :
    (drawRows x0 y0 rs s).V q = s.V q := by
  induction rs generalizing s with
  | nil => rfl
  | cons r rs ih =>
    unfold drawRows
    split
    · rfl
    · rw [ih, drawColumns_V_other _ _ _ _ _ hq]

/-! ## The host's operations -/

/-- The memory of a constructed engine. -/
theorem construct_mem (p : Construction) :
    (construct p).mem = writeAll p.byteAt (List.range Config.memSize) [] := by
  unfold construct
  with_reducible rfl

/-- Writing a list of addresses keeps the canonical form. -/
theorem writeAll_wf (f : Nat → Byte) (as : List Nat) (m : List Host.Cell) (hm : Memory.wf m = true) :
    Memory.wf (writeAll f as m) = true := by
  induction as generalizing m with
  | nil => exact hm
  | cons a as ih => exact ih _ (Memory.wf_write m a (f a) hm)

/-- The bytes after writing `f` to a list of addresses inside memory. -/
theorem writeAll_byte (f : Nat → Byte) (as : List Nat) (m : List Host.Cell) (hm : Memory.wf m = true)
    (has : ∀ a ∈ as, a < 4096) (b : Nat) :
    Memory.byte (writeAll f as m) b = if b ∈ as then f b else Memory.byte m b := by
  induction as generalizing m with
  | nil => simp [writeAll]
  | cons a as ih =>
    have ha := has a List.mem_cons_self
    unfold writeAll
    rw [ih _ (Memory.wf_write m a (f a) hm) fun c hc => has c (List.mem_cons_of_mem _ hc),
      Memory.byte_write m a (f a) hm ha]
    by_cases h1 : b = a
    · subst h1; simp
    · simp [h1]

/-- Writing bytes from an address on keeps the canonical form. -/
theorem writeFrom_wf (a : Nat) (bs : List Byte) (m : List Host.Cell) (hm : Memory.wf m = true) :
    Memory.wf (writeFrom a bs m) = true := by
  induction bs generalizing a m with
  | nil => exact hm
  | cons b bs ih => exact ih _ _ (Memory.wf_write m a b hm)

/-- The bytes outside the addresses written from `a` on. -/
theorem writeFrom_byte_outside (a : Nat) (bs : List Byte) (m : List Host.Cell) (hm : Memory.wf m = true)
    (hfit : a + bs.length ≤ 4096) (c : Nat) (hc : c < a ∨ a + bs.length ≤ c) :
    Memory.byte (writeFrom a bs m) c = Memory.byte m c := by
  induction bs generalizing a m with
  | nil => rfl
  | cons b bs ih =>
    simp only [List.length_cons] at hfit hc
    unfold writeFrom
    rw [ih (a + 1) _ (Memory.wf_write m a b hm) (by omega) (by omega),
      Memory.byte_write m a b hm (by omega), if_neg (by omega)]

/-- The byte at each address written from `a` on. -/
theorem writeFrom_byte_inside (a : Nat) (bs : List Byte) (m : List Host.Cell) (hm : Memory.wf m = true)
    (hfit : a + bs.length ≤ 4096) (k : Nat) (hk : k < bs.length) :
    Memory.byte (writeFrom a bs m) (a + k) = bs[k] := by
  induction bs generalizing a m k with
  | nil => exact absurd hk (Nat.not_lt_zero k)
  | cons b bs ih =>
    simp only [List.length_cons] at hfit hk
    have hwf := Memory.wf_write m a b hm
    unfold writeFrom
    cases k with
    | zero =>
      rw [writeFrom_byte_outside (a + 1) bs _ hwf (by omega) (a + 0) (by omega),
        Memory.byte_write m a b hm (by omega), if_pos (by omega)]
      rfl
    | succ k =>
      rw [show a + (k + 1) = a + 1 + k by omega, ih (a + 1) _ hwf (by omega) k (by omega)]
      rfl

/-- The bytes of a word placed for the next fetch make the word up again (spec R40). -/
theorem wordOfBytes_bytes (w : Word) : wordOfBytes (highByte w) (lowByte w) = w := by
  apply BitVec.eq_of_getLsbD_eq
  intro k hk
  simp only [wordOfBytes, highByte, lowByte, BitVec.getLsbD_append, BitVec.getLsbD_extractLsb']
  by_cases h : k < 8
  · simp [h]
  · simp [h, show k - 8 < 8 by omega, show 8 + (k - 8) = k by omega]

/-- A word placed in canonical memory is the word the next fetch reads (spec R44, R53). -/
theorem fetch_placeWord (s : State) (w : Word) (hm : Memory.wf s.mem = true) (hpc : s.pc.toNat ≤ 0xFFE) :
    fetch (placeWord s w) = .ok w := by
  have hpc1 : (placeWord s w).pc = s.pc := rfl
  have hmem : (placeWord s w).mem =
      Memory.write (Memory.write s.mem s.pc.toNat (highByte w)) (s.pc.toNat + 1) (lowByte w) := rfl
  have hwf := Memory.wf_write s.mem s.pc.toNat (highByte w) hm
  rcases fetch_cases (placeWord s w) with h | h | h
  · rw [h.2, hpc1, hmem, Memory.byte_write _ _ _ hwf (by omega), Memory.byte_write _ _ _ hwf (by omega),
      if_neg (by omega), if_pos rfl, Memory.byte_write _ _ _ hm (by omega), if_pos rfl, wordOfBytes_bytes]
  · exact absurd h.1 (by rw [hpc1]; omega)
  · exact absurd h.1 (by rw [hpc1]; omega)

/-- `load` succeeds on at most 3584 bytes and otherwise changes nothing (spec R117). -/
theorem load_cases (bytes : List Byte) (s : State) :
    (bytes.length ≤ 3584 ∧ load bytes s = (.ok, s.setMem (writeFrom 0x200 bytes s.mem))) ∨
    (3584 < bytes.length ∧ load bytes s = (.fault (.loadTooLarge bytes.length), s)) := by
  unfold load
  by_cases h : Config.memSize - Config.progBase < bytes.length
  · exact .inr ⟨h, if_pos h⟩
  · exact .inl ⟨Nat.le_of_not_lt h, if_neg h⟩

/-- A timer counted down (spec R112). -/
theorem countDown_toNat (b : Byte) : (countDown b).toNat = b.toNat - 1 := by
  have h : ∀ b : Byte, (countDown b).toNat = b.toNat - 1 := by decide
  exact h b

/-- A step of a running engine executes the fetched word, or raises the fetch's error (spec R53). -/
theorem step_running (s : State) (h : s.status = .running) :
    step s = orRaise s (fetch s) fun w => execWord w s.advance := by
  unfold step
  rw [h]

/-- No step is admitted from a faulted state (spec R104). -/
theorem step_faulted (s : State) (e : FatalError) (h : s.status = .faulted e) :
    step s = .fault (.stepWhileFaulted e) := by
  unfold step
  rw [h]

end Sys2Proof.Machine
end

