-- ==== Sys2Proof/Laws/PerInstr.lean ====
section
/-! SUPPORT. The per-instruction law Row: the word of every instruction matches its row of spec/opcode_table.json. -/

namespace Sys2Proof.Laws.Row

open Sys2Proof

/-- The mask of an instruction's row in spec/opcode_table.json. -/
def mask : Instr → Word
  | .cls | .ret => 0xFFFF
  | .seReg _ _ | .sneReg _ _ | .ldReg _ _ | .orReg _ _ | .andReg _ _ | .xorReg _ _ => 0xF00F
  | .addReg _ _ | .sub _ _ | .shr _ _ | .subn _ _ | .shl _ _ => 0xF00F
  | .skp _ | .sknp _ | .ldVxDt _ | .ldDtVx _ | .ldStVx _ => 0xF0FF
  | .jp _ | .call _ | .ldI _ | .jpV0 _ => 0xF000
  | .seImm _ _ | .sneImm _ _ | .ldImm _ _ | .addImm _ _ | .rnd _ _ | .drw _ _ _ => 0xF000

/-- The match value of an instruction's row in spec/opcode_table.json. -/
def pattern : Instr → Word
  | .cls => 0x00E0
  | .ret => 0x00EE
  | .jp _ => 0x1000
  | .call _ => 0x2000
  | .seImm _ _ => 0x3000
  | .sneImm _ _ => 0x4000
  | .seReg _ _ => 0x5000
  | .ldImm _ _ => 0x6000
  | .addImm _ _ => 0x7000
  | .ldReg _ _ => 0x8000
  | .orReg _ _ => 0x8001
  | .andReg _ _ => 0x8002
  | .xorReg _ _ => 0x8003
  | .addReg _ _ => 0x8004
  | .sub _ _ => 0x8005
  | .shr _ _ => 0x8006
  | .subn _ _ => 0x8007
  | .shl _ _ => 0x800E
  | .sneReg _ _ => 0x9000
  | .ldI _ => 0xA000
  | .jpV0 _ => 0xB000
  | .rnd _ _ => 0xC000
  | .drw _ _ _ => 0xD000
  | .skp _ => 0xE09E
  | .sknp _ => 0xE0A1
  | .ldVxDt _ => 0xF007
  | .ldDtVx _ => 0xF015
  | .ldStVx _ => 0xF018

/-- The word of the instruction, under its row's mask, is its row's match value. -/
def Statement (i : Instr) : Prop := encode i &&& mask i = pattern i

/-- A word of format NNN under the mask of its opcode. -/
theorem formatNNN_masked (op : BitVec 4) (nnn : Addr12) :
    formatNNN op nnn &&& 0xF000 = (op ++ (0 : Addr12) : Word) := by
  refine (BitVec.and_append (x₁ := op) (x₂ := 0xF#4) (y₁ := nnn) (y₂ := 0#12)).trans ?_
  exact congrArg₂ (fun a b => a ++ b) BitVec.and_allOnes BitVec.and_zero

/-- A word of format XNN under the mask of its opcode. -/
theorem formatXNN_masked (op : BitVec 4) (x : Reg) (nn : Byte) :
    formatXNN op x nn &&& 0xF000 = (op ++ (0 : Addr12) : Word) :=
  formatNNN_masked op (BitVec.ofFin (w := 4) x ++ nn)

/-- A word of format X under the mask of its opcode and its low byte. -/
theorem formatX_masked (op : BitVec 4) (x : Reg) (nn : Byte) :
    formatXNN op x nn &&& 0xF0FF = formatXNN op 0 nn := by
  refine (BitVec.and_append (x₁ := op) (x₂ := 0xF#4) (y₁ := BitVec.ofFin (w := 4) x ++ nn) (y₂ := 0#4 ++ 0xFF#8)).trans ?_
  refine congrArg₂ (fun a b => a ++ b) BitVec.and_allOnes (BitVec.and_append.trans ?_)
  exact congrArg₂ (fun a b => a ++ b) BitVec.and_zero BitVec.and_allOnes

/-- A word of format XYN under the mask of its opcode. -/
theorem formatXYN_masked (op : BitVec 4) (x y : Reg) (n : BitVec 4) :
    formatXYN op x y n &&& 0xF000 = (op ++ (0 : Addr12) : Word) :=
  formatNNN_masked op (BitVec.ofFin (w := 4) x ++ (BitVec.ofFin (w := 4) y ++ n))

/-- A word of format XY under the mask of its opcode and its last nibble. -/
theorem formatXY_masked (op : BitVec 4) (x y : Reg) (n : BitVec 4) :
    formatXYN op x y n &&& 0xF00F = formatXYN op 0 0 n := by
  refine (BitVec.and_append (x₁ := op) (x₂ := 0xF#4)
    (y₁ := BitVec.ofFin (w := 4) x ++ (BitVec.ofFin (w := 4) y ++ n)) (y₂ := 0#4 ++ (0#4 ++ 0xF#4))).trans ?_
  refine congrArg₂ (fun a b => a ++ b) BitVec.and_allOnes (BitVec.and_append.trans ?_)
  refine congrArg₂ (fun a b => a ++ b) BitVec.and_zero (BitVec.and_append.trans ?_)
  exact congrArg₂ (fun a b => a ++ b) BitVec.and_zero BitVec.and_allOnes

theorem cls : Statement .cls := rfl
theorem ret : Statement .ret := rfl
theorem jp (nnn : Addr12) : Statement (.jp nnn) := formatNNN_masked 0x1 nnn
theorem call (nnn : Addr12) : Statement (.call nnn) := formatNNN_masked 0x2 nnn
theorem seImm (x : Reg) (nn : Byte) : Statement (.seImm x nn) := formatXNN_masked 0x3 x nn
theorem sneImm (x : Reg) (nn : Byte) : Statement (.sneImm x nn) := formatXNN_masked 0x4 x nn
theorem seReg (x y : Reg) : Statement (.seReg x y) := formatXY_masked 0x5 x y 0x0
theorem ldImm (x : Reg) (nn : Byte) : Statement (.ldImm x nn) := formatXNN_masked 0x6 x nn
theorem addImm (x : Reg) (nn : Byte) : Statement (.addImm x nn) := formatXNN_masked 0x7 x nn
theorem ldReg (x y : Reg) : Statement (.ldReg x y) := formatXY_masked 0x8 x y 0x0
theorem orReg (x y : Reg) : Statement (.orReg x y) := formatXY_masked 0x8 x y 0x1
theorem andReg (x y : Reg) : Statement (.andReg x y) := formatXY_masked 0x8 x y 0x2
theorem xorReg (x y : Reg) : Statement (.xorReg x y) := formatXY_masked 0x8 x y 0x3
theorem addReg (x y : Reg) : Statement (.addReg x y) := formatXY_masked 0x8 x y 0x4
theorem sub (x y : Reg) : Statement (.sub x y) := formatXY_masked 0x8 x y 0x5
theorem shr (x y : Reg) : Statement (.shr x y) := formatXY_masked 0x8 x y 0x6
theorem subn (x y : Reg) : Statement (.subn x y) := formatXY_masked 0x8 x y 0x7
theorem shl (x y : Reg) : Statement (.shl x y) := formatXY_masked 0x8 x y 0xE
theorem sneReg (x y : Reg) : Statement (.sneReg x y) := formatXY_masked 0x9 x y 0x0
theorem ldI (nnn : Addr12) : Statement (.ldI nnn) := formatNNN_masked 0xA nnn
theorem jpV0 (nnn : Addr12) : Statement (.jpV0 nnn) := formatNNN_masked 0xB nnn
theorem rnd (x : Reg) (nn : Byte) : Statement (.rnd x nn) := formatXNN_masked 0xC x nn
theorem drw (x y : Reg) (n : Nat) : Statement (.drw x y n) := formatXYN_masked 0xD x y (BitVec.ofNat 4 n)
theorem skp (x : Reg) : Statement (.skp x) := formatX_masked 0xE x 0x9E
theorem sknp (x : Reg) : Statement (.sknp x) := formatX_masked 0xE x 0xA1
theorem ldVxDt (x : Reg) : Statement (.ldVxDt x) := formatX_masked 0xF x 0x07
theorem ldDtVx (x : Reg) : Statement (.ldDtVx x) := formatX_masked 0xF x 0x15
theorem ldStVx (x : Reg) : Statement (.ldStVx x) := formatX_masked 0xF x 0x18

end Sys2Proof.Laws.Row
end

