-- ==== Sys2Proof/Tests/Slice0.lean ====
section
/-! SUPPORT. Tests: well-formedness, decoding by words written out from the spec, one step per instruction from the
vectors of spec/95_test_vectors.md (named T<n> and S<n> as there), and a witness for the hypotheses of each
obligation. -/

-- Elaborates the tests one after another: many theorems decided at once open more threads than the check allows.
set_option Elab.async false

namespace Sys2Proof.Tests

open Sys2Proof Sys2Proof.Machine

/-! ## Helpers -/

/-- The next state an outcome holds, if it holds one. -/
def nextOf (r : Result) : Option State :=
  match r with
  | .next t => some t
  | .fault _ => none
  | .refused _ => none

/-- The step of `s` with the word `w` placed at its pc. -/
def stepOn (s : State) (w : Word) : Option State := nextOf (step (placeWord s w))

/-- The reset state with two registers set. -/
def regs2 (r q : Reg) (a b : Byte) : State := (State.reset.setV r a).setV q b

/-- The reset state with both quirks on. -/
def quirky : State := { State.reset with quirks := ⟨true, true⟩ }

/-- V[r], V[0xF] and pc after a step. -/
def see (r : Reg) (t : Option State) : Option (Byte × Byte × Word) := t.map fun u => (u.V r, u.V VF, u.pc)

/-- pc, stack and status after a step. -/
def seeControl (t : Option State) : Option (Word × List Word × Status) := t.map fun u => (u.pc, u.stack, u.status)

/-- Some cells, V[0xF] and the status after a step. -/
def seeCells (l : List Nat) (t : Option State) : Option (List Bool × Byte × Status) :=
  t.map fun u => (l.map u.cell, u.V VF, u.status)

/-! ## Well-formedness: the one check, a sprite height its field cannot hold -/

theorem test_wellFormed_refuses_height_16 : (Instr.drw 0 0 16).wellFormed = false := by decide
theorem test_wellFormed_takes_height_15 : (Instr.drw 0 0 15).wellFormed = true := by decide

/-! ## Decoding: a word for every constructor, from the patterns of spec R57 and R59 -/

theorem test_decode_cls : decodeWord 0b0000000011100000 = .ok .cls := by decide
theorem test_decode_ret : decodeWord 0b0000000011101110 = .ok .ret := by decide
theorem test_decode_jp : decodeWord 0b0001001000110100 = .ok (.jp 0x234) := by decide
theorem test_decode_call : decodeWord 0b0010111111111110 = .ok (.call 0xFFE) := by decide
theorem test_decode_seImm : decodeWord 0b0011000101000010 = .ok (.seImm 1 0x42) := by decide
theorem test_decode_sneImm : decodeWord 0b0100000101000011 = .ok (.sneImm 1 0x43) := by decide
theorem test_decode_seReg : decodeWord 0b0101001000110000 = .ok (.seReg 2 3) := by decide
theorem test_decode_ldImm : decodeWord 0b0110101000111100 = .ok (.ldImm 0xA 0x3C) := by decide
theorem test_decode_addImm : decodeWord 0b0111001000100000 = .ok (.addImm 2 0x20) := by decide
theorem test_decode_ldReg : decodeWord 0b1000000100110000 = .ok (.ldReg 1 3) := by decide
theorem test_decode_orReg : decodeWord 0b1000000000010001 = .ok (.orReg 0 1) := by decide
theorem test_decode_andReg : decodeWord 0b1000000000010010 = .ok (.andReg 0 1) := by decide
theorem test_decode_xorReg : decodeWord 0b1000000000010011 = .ok (.xorReg 0 1) := by decide
theorem test_decode_addReg : decodeWord 0b1000000000010100 = .ok (.addReg 0 1) := by decide
theorem test_decode_sub : decodeWord 0b1000111100000101 = .ok (.sub 0xF 0) := by decide
theorem test_decode_shr : decodeWord 0b1000001101000110 = .ok (.shr 3 4) := by decide
theorem test_decode_subn : decodeWord 0b1000000000010111 = .ok (.subn 0 1) := by decide
theorem test_decode_shl : decodeWord 0b1000010001011110 = .ok (.shl 4 5) := by decide
theorem test_decode_sneReg : decodeWord 0b1001000100100000 = .ok (.sneReg 1 2) := by decide
theorem test_decode_ldI : decodeWord 0b1010000001010000 = .ok (.ldI 0x050) := by decide
theorem test_decode_jpV0 : decodeWord 0b1011001100000000 = .ok (.jpV0 0x300) := by decide
theorem test_decode_rnd : decodeWord 0b1100001100001111 = .ok (.rnd 3 0x0F) := by decide
theorem test_decode_drw : decodeWord 0b1101000100100011 = .ok (.drw 1 2 3) := by decide
theorem test_decode_skp : decodeWord 0b1110001010011110 = .ok (.skp 2) := by decide
theorem test_decode_sknp : decodeWord 0b1110001010100001 = .ok (.sknp 2) := by decide
theorem test_decode_ldVxDt : decodeWord 0b1111001100000111 = .ok (.ldVxDt 3) := by decide
theorem test_decode_ldDtVx : decodeWord 0b1111000000010101 = .ok (.ldDtVx 0) := by decide
theorem test_decode_ldStVx : decodeWord 0b1111000100011000 = .ok (.ldStVx 1) := by decide

/-- T6 to T8, T10 and T11: words of every row of spec R62 are refused by that row's name. -/
theorem test_decode_refuses_by_name :
    decodeWord 0x0123 = .error .illegal0 ∧ decodeWord 0x00E1 = .error .illegal0 ∧
    decodeWord 0x5121 = .error .illegal5 ∧ decodeWord 0x8128 = .error .illegal8 ∧
    decodeWord 0x800F = .error .illegal8 ∧ decodeWord 0x9001 = .error .illegal9 ∧
    decodeWord 0xE0A2 = .error .illegalE ∧ decodeWord 0xF00A = .error .illegalF ∧
    decodeWord 0xF165 = .error .illegalF ∧ decodeBytes [0x60] = .error .tooShort := by decide

/-- S2: the first byte is the high byte. -/
theorem test_decodeBytes_big_endian : decodeBytes [0x60, 0x05, 0xFF] = .ok (.ldImm 0 0x05, [0xFF]) := by decide

/-! ## Fetch and faults -/

/-- T1: a fetch at an odd pc. -/
theorem test_fetch_odd : see 0 (stepOn (State.reset.setPc 0x201) 0x6007) = some (0x07, 0, 0x203) := by decide

/-- T2: the last word of memory. -/
theorem test_fetch_last_word : see 0 (stepOn (State.reset.setPc 0xFFE) 0x6001) = some (0x01, 0, 0x1000) := by
  decide

/-- T3 and T4: a fetch outside memory names the first address that failed and leaves pc. -/
theorem test_fetch_outside :
    seeControl (nextOf (step (State.reset.setPc 0x1000))) = some (0x1000, [], .faulted (.outOfBounds 0x1000)) ∧
    seeControl (nextOf (step (State.reset.setPc 0xFFF))) = some (0xFFF, [], .faulted (.outOfBounds 0x1000)) := by
  decide

/-- T5: an illegal word at the end of memory, pc advanced. -/
theorem test_illegal_word :
    seeControl (stepOn (State.reset.setPc 0xFFE) 0xFFFF) =
      some (0x1000, [], .faulted (.illegalInstruction 0xFFE 0xFFFF)) := by decide

/-- T12: no step from a faulted state. -/
theorem test_no_step_when_faulted :
    nextOf (step (State.reset.setStatus (.faulted (.stackUnderflow 0x200)))) = none := by decide

/-! ## One step per instruction -/

/-- T13. -/
theorem test_ldImm : see 0xA (stepOn State.reset 0x6A3C) = some (0x3C, 0, 0x202) := by decide

/-- T14 and T15: no flag on a wrap; V[0xF] added to as an ordinary register. -/
theorem test_addImm :
    see 2 (stepOn (regs2 2 VF 0xF0 0x07) 0x7220) = some (0x10, 0x07, 0x202) ∧
    see VF (stepOn (regs2 0 VF 0 0x01) 0x7FFF) = some (0x00, 0x00, 0x202) := by decide

/-- T16. -/
theorem test_ldReg : see 1 (stepOn (regs2 3 0 0x7E 0) 0x8130) = some (0x7E, 0, 0x202) := by decide

/-- T17: the flag is not cleared. -/
theorem test_orReg :
    see 0 (stepOn ((regs2 0 1 0x0F 0xF0).setV VF 0x55) 0x8011) = some (0xFF, 0x55, 0x202) := by decide

/-- T18. -/
theorem test_andReg : see 0 (stepOn (regs2 0 1 0x3C 0x0F) 0x8012) = some (0x0C, 0, 0x202) := by decide

/-- T19 and the example of R72. -/
theorem test_xorReg :
    see 0 (stepOn (regs2 0 1 0x5A 0) 0x8003) = some (0x00, 0, 0x202) ∧
    see 0 (stepOn (regs2 0 1 0xFF 0x0F) 0x8013) = some (0xF0, 0, 0x202) := by decide

/-- T21 and T22: the carry wins in V[0xF]; the old V[0xF] is the addend. -/
theorem test_addReg_vf :
    see VF (stepOn (regs2 VF 1 0xFF 0x01) 0x8F14) = some (1, 1, 0x202) ∧
    see 0 (stepOn (regs2 0 VF 0x01 0xFE) 0x80F4) = some (0xFF, 0, 0x202) := by decide

/-- S3: a sum of 256 and one of 255. -/
theorem test_addReg :
    see 0 (stepOn (regs2 0 1 0xFF 0x01) 0x8014) = some (0x00, 1, 0x202) ∧
    see 0 (stepOn (regs2 0 1 0x7F 0x80) 0x8014) = some (0xFF, 0, 0x202) := by decide

/-- S4: borrow and equality. -/
theorem test_sub :
    see 0 (stepOn (regs2 0 1 0x03 0x05) 0x8015) = some (0xFE, 0, 0x202) ∧
    see 0 (stepOn (regs2 0 1 0x07 0x07) 0x8015) = some (0x00, 1, 0x202) := by decide

/-- T23 and T24. -/
theorem test_sub_vf :
    see 0 (stepOn (regs2 0 VF 0x10 0x20) 0x80F5) = some (0xF0, 0, 0x202) ∧
    see VF (stepOn (regs2 VF 0 0x30 0x10) 0x8F05) = some (1, 1, 0x202) := by decide

/-- T25 and T26. -/
theorem test_subn :
    see 0 (stepOn (regs2 0 1 0x10 0x30) 0x8017) = some (0x20, 1, 0x202) ∧
    see 0 (stepOn (regs2 0 1 0x01 0x00) 0x8017) = some (0xFF, 0, 0x202) := by decide

/-- T29 and T31: quirk off. -/
theorem test_shr_quirk_off :
    see 3 (stepOn (regs2 3 4 0x01 0xFF) 0x8346) = some (0x00, 1, 0x202) ∧
    see VF (stepOn (regs2 0 VF 0 0x02) 0x8F06) = some (0, 0, 0x202) := by decide

/-- T30: quirk on. -/
theorem test_shr_quirk_on :
    see 3 (stepOn ((quirky.setV 3 0xFF).setV 4 0x02) 0x8346) = some (0x01, 0, 0x202) := by decide

/-- T32 and T33: the flag is 1, not 0x80. -/
theorem test_shl_quirk_off :
    see 0 (stepOn (regs2 0 1 0x80 0) 0x800E) = some (0x00, 1, 0x202) ∧
    see 0 (stepOn (regs2 0 1 0x7F 0) 0x800E) = some (0xFE, 0, 0x202) := by decide

/-- T34 and T35: quirk on. -/
theorem test_shl_quirk_on :
    see 4 (stepOn ((quirky.setV 4 0x81).setV 5 0x40) 0x845E) = some (0x80, 0, 0x202) ∧
    see 0 (stepOn (quirky.setV VF 0xC0) 0x80FE) = some (0x80, 1, 0x202) := by decide

/-- T36. -/
theorem test_ldI : (stepOn State.reset 0xAFFF).map State.i = some 0x0FFF := by decide

/-- T39: a mask of 0 gives 0 whatever byte comes, and one byte is consumed. -/
theorem test_rnd_mask_zero (s : State) :
    ∃ t, exec (.rnd 3 0) s = .next t ∧ t.V 3 = 0 ∧ t.randCount = s.randCount + 1 :=
  ⟨_, rfl, by simp, rfl⟩

/-- T41 and T42. -/
theorem test_jp :
    seeControl (stepOn State.reset 0x1234) = some (0x234, [], .running) ∧
    stepOn State.reset 0x1200 = some (placeWord State.reset 0x1200) := by decide +kernel

/-- T44 and T46. -/
theorem test_call :
    seeControl (stepOn (State.reset.setPc 0x2FE) 0x2400) = some (0x400, [0x300], .running) ∧
    seeControl (stepOn { State.reset with stackCapacity := some 2, stack := [0x300] } 0x2600) =
      some (0x600, [0x202, 0x300], .running) := by decide

/-- T45: a full stack. -/
theorem test_call_overflow :
    seeControl (stepOn { State.reset with pc := 0x500, stackCapacity := some 2, stack := [0x400, 0x300] } 0x2600) =
      some (0x502, [0x400, 0x300], .faulted (.stackOverflow 0x500)) := by decide

/-- T47 and T48. -/
theorem test_ret :
    seeControl (stepOn State.reset 0x00EE) = some (0x202, [], .faulted (.stackUnderflow 0x200)) ∧
    seeControl (stepOn { State.reset with pc := 0x400, stack := [0x300] } 0x00EE) = some (0x300, [], .running) := by
  decide

/-- T49 and T50. -/
theorem test_seImm :
    see 1 (stepOn (regs2 1 0 0x42 0) 0x3142) = some (0x42, 0, 0x204) ∧
    see 1 (stepOn (regs2 1 0 0x42 0) 0x3143) = some (0x42, 0, 0x202) := by decide

/-- T51. -/
theorem test_sneImm :
    see 1 (stepOn (regs2 1 0 0x42 0) 0x4143) = some (0x42, 0, 0x204) ∧
    see 1 (stepOn (regs2 1 0 0x42 0) 0x4142) = some (0x42, 0, 0x202) := by decide

/-- T52 and unequal registers. -/
theorem test_seReg :
    see 2 (stepOn (regs2 2 3 7 8) 0x5220) = some (7, 0, 0x204) ∧
    see 2 (stepOn (regs2 2 3 7 8) 0x5230) = some (7, 0, 0x202) := by decide

/-- T53 and the example of R87. -/
theorem test_sneReg :
    see 2 (stepOn (regs2 2 3 7 8) 0x9220) = some (7, 0, 0x202) ∧
    see 2 (stepOn (regs2 2 3 7 8) 0x9230) = some (7, 0, 0x204) := by decide

/-- T55: a skip at the end of memory. -/
theorem test_skip_past_memory :
    seeControl (stepOn (State.reset.setPc 0xFFE) 0x3000) = some (0x1002, [], .running) := by decide

/-- S10 and T56, quirk off. -/
theorem test_jpV0_quirk_off :
    seeControl (stepOn (regs2 0 3 0x10 0x20) 0xB300) = some (0x310, [], .running) ∧
    seeControl (stepOn (regs2 0 3 0xFF 0) 0xBFFF) = some (0x10FE, [], .running) := by decide

/-- S10 and T57, quirk on. -/
theorem test_jpV0_quirk_on :
    seeControl (stepOn ((quirky.setV 0 0x10).setV 3 0x20) 0xB300) = some (0x320, [], .running) ∧
    seeControl (stepOn ((quirky.setV 0 0x80).setV VF 0x01) 0xBFFF) = some (0x1000, [], .running) := by decide

/-- T59 on some cells: the first, the last and one between. -/
theorem test_cls :
    seeCells [0, 1000, 2047] (stepOn ((State.reset.setV VF 7).setDisp (BitVec.allOnes 2048)) 0x00E0) =
      some ([false, false, false], 7, .running) := by decide +kernel

/-- T63: the right edge clips and does not wrap. -/
theorem test_drw_right_edge :
    seeCells [59, 60, 63, 0, 64, 67]
      (stepOn { regs2 0 1 60 0 with i := 0x300, mem := [(0x300, 0xFF)] } 0xD011) =
      some ([false, true, true, false, false, false], 0, .running) := by decide +kernel

/-- T67 and T69: a collision; an old V[0xF] as the coordinate. -/
theorem test_drw_collision :
    seeCells [0, 1] (stepOn { State.reset.setCell 0 true with i := 0x300, mem := [(0x300, 0xC0)] } 0xD011) =
      some ([false, true], 1, .running) ∧
    seeCells [0, 5] (stepOn { State.reset.setV VF 5 with i := 0x300, mem := [(0x300, 0x80)] } 0xDF01) =
      some ([false, true], 0, .running) := by decide +kernel

/-- T65: every row address is checked, clipped or not, before any effect. -/
theorem test_drw_outside :
    seeCells [0] (stepOn { regs2 1 VF 31 9 with i := 0xFFF } 0xD012) =
      some ([false], 9, .faulted (.outOfBounds 0x1000)) := by decide +kernel

/-- T72 on its first three rows: digit A of the font. -/
theorem test_drw_font_digit :
    seeCells [0, 3, 4, 64, 65, 67, 128, 131] (stepOn (State.reset.setI 0x082) 0xD013) =
      some ([true, true, false, true, false, true, true, true], 0, .running) := by decide +kernel

/-- T73 and T74. -/
theorem test_skp :
    see 2 (stepOn ((regs2 2 0 0x05 0).setKeys 0x0020) 0xE29E) = some (0x05, 0, 0x204) ∧
    see 2 (stepOn ((regs2 2 0 0x15 0).setKeys 0x0020) 0xE29E) = some (0x15, 0, 0x202) := by decide

/-- T75 and T76. -/
theorem test_sknp :
    see 2 (stepOn ((regs2 2 0 0x15 0).setKeys 0x0020) 0xE2A1) = some (0x15, 0, 0x204) ∧
    see 2 (stepOn (regs2 2 0 0x05 0) 0xE2A1) = some (0x05, 0, 0x204) := by decide

/-- T78. -/
theorem test_ldVxDt : see 3 (stepOn (State.reset.setDt 0x3C) 0xF307) = some (0x3C, 0, 0x202) := by decide

/-- T79. -/
theorem test_ldDtVx : (stepOn (regs2 0 1 0x05 0) 0xF015).map State.dt = some 5 := by decide

/-- T80. -/
theorem test_ldStVx : (stepOn (regs2 0 1 0 0x02) 0xF118).map State.st = some 2 := by decide

/-! ## The host's operations -/

/-- T82 and T83. -/
theorem test_tick :
    (tickTimers { State.reset with dt := 0, st := 1 }).dt = 0 ∧ (tickTimers { State.reset with dt := 0, st := 1 }).st = 0 ∧
    (tickTimers { State.reset with dt := 0xFF, st := 0xFF }).dt = 0xFE := by decide

/-- T84: a tick in a faulted state. -/
theorem test_tick_faulted :
    tickTimers { State.reset with dt := 2, status := .faulted (.stackUnderflow 0x200) } =
      { State.reset with dt := 1, status := .faulted (.stackUnderflow 0x200) } := by decide +kernel

/-- T88, T89 and S8's bytes: `load` writes from 0x200 on. -/
theorem test_load :
    load [] State.reset = (.ok, State.reset) ∧
    (load [0x12, 0x00] State.reset).2.mem = [(0x200, 0x12)] ∧
    fetch (load [0x60, 0x05, 0x61, 0x03] State.reset).2 = .ok 0x6005 := by decide +kernel

/-- T87: 3585 bytes are too many. -/
theorem test_load_too_large (s : State) (bytes : List Byte) (h : bytes.length = 3585) :
    load bytes s = (.fault (.loadTooLarge 3585), s) := by
  rcases load_cases bytes s with h1 | h1
  · exact absurd h1.1 (by omega)
  · rw [h1.2, h]

/-- The codes of spec R103. -/
theorem test_codes :
    (FatalError.outOfBounds 0).code = 1 ∧ (FatalError.stackUnderflow 0).code = 2 ∧
    (FatalError.illegalInstruction 0 0).code = 3 ∧ (FatalError.loadTooLarge 0).code = 4 ∧
    (FatalError.stackOverflow 0).code = 5 := by decide

/-! ## Witnesses: for each obligation with hypotheses, a state and operands that meet them -/

theorem witness_DecodeOfEncode : (Instr.drw 0xF 0 15).wellFormed = true := by decide
theorem witness_EncodeOfDecode : decodeWord 0xD0FF = .ok (.drw 0 0xF 15) := by decide
theorem witness_IllegalWordsAreThoseOfTheTable :
    State.reset.status = .running ∧ fetch State.reset = .ok 0x0000 ∧ illegalPattern 0x0000 = true := by decide
theorem witness_StepRunsTheDecodedInstruction_decodes :
    memRead (placeWord State.reset 0x8014) 0x200 = .ok 0x80 ∧ memRead (placeWord State.reset 0x8014) 0x201 = .ok 0x14 ∧
    decodeWord ((0x80 : Byte) ++ (0x14 : Byte)) = .ok (.addReg 0 1) := by decide
theorem witness_StepRunsTheDecodedInstruction_illegal :
    memRead State.reset 0x200 = .ok 0x00 ∧ memRead State.reset 0x201 = .ok 0x00 ∧
    decodeWord ((0x00 : Byte) ++ (0x00 : Byte)) = .error .illegal0 := by decide
theorem witness_StepRunsTheDecodedInstruction_first_read_raises :
    memRead State.reset 0x1000 = .error (.outOfBounds 0x1000) := by decide
theorem witness_StepRunsTheDecodedInstruction_second_read_raises :
    memRead State.reset 0xFFF = .ok 0x00 ∧ memRead State.reset (0xFFF + 1) = .error (.outOfBounds 0x1000) := by
  decide
theorem witness_FetchOutsideMemoryRaises :
    (State.reset.setPc 0xFFE).pc.toNat ≤ 0xFFE ∧ (State.reset.setPc 0xFFF).pc.toNat = 0xFFF ∧
    0x1000 ≤ (State.reset.setPc 0x1000).pc.toNat ∧ (State.reset.setPc 0xFFE).status = .running := by decide
theorem witness_FaultedStatusIsSticky :
    ∃ t, hostOp .begun .tick (State.reset.setStatus (.faulted (.outOfBounds 4096))) = .next (.begun, t) := ⟨_, rfl⟩
theorem witness_FaultedStatusIsSticky_load :
    (load (List.replicate 3585 0x01) State.reset).1 = .fault (.loadTooLarge 3585) := by
  rw [test_load_too_large State.reset _ List.length_replicate]
theorem witness_PcAfterSuccessfulStep :
    fetch (placeWord State.reset 0x1234) = .ok 0x1234 ∧ decodeWord 0x1234 = .ok (.jp 0x234) ∧
    (stepOn State.reset 0x1234).map State.status = some .running := by decide
theorem witness_PlacedWordIsRun :
    Memory.wf (State.reset.setPc 0xFFE).mem = true ∧ (State.reset.setPc 0xFFE).status = .running ∧
    (State.reset.setPc 0xFFE).pc.toNat ≤ 0xFFE ∧ decodeTableWord 16 0x00E0 = some .cls := by decide
theorem test_decodeTableWord : decodeTableWord 16 0xFFFF = none ∧ decodeTableWord 16 0x00E0 = some .cls := by decide
theorem witness_CallPushesOrOverflows_room :
    ∀ c, ({ State.reset with stackCapacity := some 1 } : State).stackCapacity = some c → State.reset.stack.length < c := by
  intro c h
  cases h
  decide
theorem witness_CallPushesOrOverflows_full :
    ({ State.reset with stackCapacity := some 0 } : State).stackCapacity = some State.reset.stack.length := rfl
theorem witness_ReturnPopsOrUnderflows :
    ({ State.reset with stack := [0x300] } : State).stack = [0x300] ∧ State.reset.stack = [] := ⟨rfl, rfl⟩
theorem witness_ReturnUndoesCall :
    ∃ t, exec (.call 0x400) State.reset = .next t ∧ t.status = .running := ⟨_, rfl, rfl⟩
theorem witness_JumpWithOffset :
    State.reset.quirks.useVxForJumpOffset = false ∧ quirky.quirks.useVxForJumpOffset = true ∧
    (VF : Reg).val = (0xFFF : Addr12).toNat / 256 := by decide
theorem witness_DrawOutsideMemoryRaises :
    1 < 2 ∧ 4096 ≤ (State.reset.setI 0xFFF).i.toNat + 1 ∧ ∀ q < 1, (State.reset.setI 0xFFF).i.toNat + q < 4096 := by decide
theorem witness_DrawIsCellwiseXorWithCollision : ∀ r < 1, (State.reset.setI 0xFFF).i.toNat + r < 4096 := by decide
theorem witness_DrawsOn :
    DrawsOn true ((State.reset.setCell 0 true).setI 0x050) 0 1 5 ∧ DrawsOn false (State.reset.setI 0x050) 0 1 5 :=
  ⟨⟨0, 0, by decide, by decide, by decide +kernel, by decide +kernel⟩,
    ⟨0, 0, by decide, by decide, by decide +kernel, by decide +kernel⟩⟩
theorem witness_no_DrawsOn : ¬ DrawsOn true (State.reset.setI 0x050) 0 1 0 := by
  rintro ⟨px, py, _, _, h, _⟩
  simp [drawnBit, State.V, State.reset] at h
theorem witness_DrawTwiceRestoresDisplay :
    ((nextOf (exec (.drw 0 1 1) (State.reset.setI 0x050))).any fun t =>
      decide (t.V 0 = (State.reset.setI 0x050).V 0) && decide (t.V 1 = (State.reset.setI 0x050).V 1) &&
        (nextOf (exec (.drw 0 1 1) t)).isSome) = true ∧
    ∀ r < 1, (State.reset.setI 0x050).i.toNat + r < 4096 := by decide +kernel
theorem witness_NoInstructionWritesMemory :
    ∃ t, Host.Core.run core 2 State.reset = .fault t ∧ ∃ u, Host.Core.run core 1 State.reset = .next u := ⟨_, rfl, _, rfl⟩
theorem witness_RegisterReadAndWriteSets :
    State.reset.status = .running ∧ ∃ t, exec (.shr VF 1) State.reset = .next t ∧ t.status = .running ∧
      (∀ r ∈ readSet (.shr VF 1) State.reset, (State.reset.setV 2 9).V r = State.reset.V r) :=
  ⟨rfl, _, rfl, rfl, by decide⟩
theorem witness_OnlyTheNamedInstructionsWrite_i :
    ∃ t, exec (.ldI 0xFFF) State.reset = .next t ∧ t.i ≠ State.reset.i := ⟨_, rfl, by decide⟩
theorem witness_OnlyTheNamedInstructionsWrite_stack :
    ∃ t, exec (.call 0) State.reset = .next t ∧ t.stack ≠ State.reset.stack := ⟨_, rfl, by decide⟩
theorem witness_OnlyTheNamedInstructionsWrite_timers :
    (∃ t, exec (.ldDtVx 0) (regs2 0 1 5 5) = .next t ∧ t.dt ≠ (regs2 0 1 5 5).dt) ∧
    (∃ t, exec (.ldStVx 0) (regs2 0 1 5 5) = .next t ∧ t.st ≠ (regs2 0 1 5 5).st) :=
  ⟨⟨_, rfl, by decide⟩, ⟨_, rfl, by decide⟩⟩
theorem witness_OnlyTheNamedInstructionsWrite_disp :
    ∃ t, exec .cls (State.reset.setDisp 1) = .next t ∧ t.disp ≠ (State.reset.setDisp 1).disp :=
  ⟨_, rfl, by decide +kernel⟩
theorem witness_OnlyTheNamedInstructionsWrite_random :
    ∃ t, exec (.rnd 0 0xFF) State.reset = .next t ∧ t.randCount ≠ State.reset.randCount := ⟨_, rfl, by decide⟩
theorem witness_OnlyTheNamedInstructionsWrite_status :
    ∃ t, exec .ret State.reset = .next t ∧ t.status ≠ State.reset.status := ⟨_, rfl, by decide⟩
theorem witness_OnlyKeySkipsReadKeys : ∀ x, Instr.sneImm 0 0 ≠ .skp x ∧ Instr.sneImm 0 0 ≠ .sknp x := by decide
theorem witness_TicksCommuteWithOtherInstructions :
    ∀ x, Instr.cls ≠ .ldVxDt x ∧ Instr.cls ≠ .ldDtVx x ∧ Instr.cls ≠ .ldStVx x := by decide
theorem witness_QuirkBitsActWhereNamed :
    (∀ x y, Instr.jpV0 0xFFF ≠ .shr x y ∧ Instr.jpV0 0xFFF ≠ .shl x y) ∧ (∀ nnn, Instr.shr 0 1 ≠ .jpV0 nnn) :=
  ⟨fun _ _ => ⟨nofun, nofun⟩, nofun⟩
theorem witness_OnlyRandomReadsTheRandomInput : ∀ x nn, Instr.drw 0 1 15 ≠ .rnd x nn := nofun
theorem witness_InstructionFaultsArePrecise :
    State.reset.status = .running ∧
    (∃ t, exec .ret State.reset = .next t ∧ t.status = .faulted (.stackUnderflow 0x1FE)) ∧
    (∃ t, exec (.call 0) { State.reset with stackCapacity := some 0 } = .next t ∧
      t.status = .faulted (.stackOverflow 0x1FE)) ∧
    (∃ t, exec (.drw 0 0 1) (State.reset.setI 0x1000) = .next t ∧ t.status = .faulted (.outOfBounds 0x1000)) :=
  ⟨rfl, ⟨_, rfl, rfl⟩, ⟨_, rfl, rfl⟩, ⟨_, rfl, rfl⟩⟩
theorem witness_RunningStepAlwaysAnswers : State.reset.status = .running := rfl
theorem witness_reset_meets_invariant : EngineInv State.reset :=
  ⟨rfl, by decide, by simp [State.reset], by intro c h; cases h⟩
theorem witness_StepKeepsInvariant : EngineInv State.reset ∧ ∃ t, step State.reset = .next t :=
  ⟨witness_reset_meets_invariant, _, rfl⟩
theorem witness_ScheduleKeepsInvariant :
    EngineInv State.reset ∧ ∃ t, hostRun .fresh [.load [0x12, 0x00], .setKeys 1, .tick, .step] State.reset = .next (.begun, t) :=
  ⟨witness_reset_meets_invariant, _, rfl⟩
theorem witness_CanonicalMemoryIsUnique :
    Memory.wf [(0x050, 0x00), (0xFFF, 0x01)] = true ∧ Memory.wf [(0x050, 0xF0)] = false ∧
    Memory.wf [(0x1000, 0x01)] = false := by decide
theorem witness_ConstructionState :
    (0x04F < 4096 ∧ 0x04F < 0x050) ∧ (0x0A0 < 4096 ∧ 0x0A0 ≤ 0x0A0) := by decide
theorem witness_LoadWritesProgramOrRefuses :
    Memory.wf State.reset.mem = true ∧ ([] : List Byte).length ≤ 3584 ∧ (List.replicate 3584 (0x01 : Byte)).length ≤ 3584 ∧
    3584 < (List.replicate 3585 (0x01 : Byte)).length := by
  refine ⟨Memory.wf_reset, ?_⟩
  simp only [List.length_replicate, List.length_nil]
  decide
theorem witness_LoadWritesProgramOrRefuses_step : ∃ t, hostOp .fresh .step State.reset = .next (.begun, t) := ⟨_, rfl⟩
theorem witness_LoadOnlyBeforeFirstStep : ([0x12, 0x00] : List Byte).length ≤ 3584 := by decide
theorem witness_StoppedRunStaysStopped : StoppedAt 0x200 (placeWord State.reset 0x1200) :=
  ⟨rfl, rfl, by decide⟩

end Sys2Proof.Tests
end

/-! PROOFS. Which state changes an instruction cannot see. A change that leaves alone what every instruction may
read or write (`OutsideCore`), and what this one reads or writes besides (`BlindTo`), commutes with it. -/

namespace Sys2Proof.Machine

open Sys2Proof

@[simp] theorem mapNext_next (f : State → State) (t : State) : mapNext f (.next t) = .next (f t) := rfl

/-- `f` keeps memory, V, I, pc, the stack with its capacity, and the display, and commutes with every write to
those fields and to the status. Outside them lie the timers, the keys, the quirks and the random position. -/
structure OutsideCore (f : State → State) : Prop where
  mem : ∀ s, (f s).mem = s.mem
  v : ∀ s, (f s).v = s.v
  i : ∀ s, (f s).i = s.i
  pc : ∀ s, (f s).pc = s.pc
  stack : ∀ s, (f s).stack = s.stack
  disp : ∀ s, (f s).disp = s.disp
  stackCapacity : ∀ s, (f s).stackCapacity = s.stackCapacity
  setV : ∀ s r b, f (s.setV r b) = (f s).setV r b
  setI : ∀ s w, f (s.setI w) = (f s).setI w
  setPc : ∀ s w, f (s.setPc w) = (f s).setPc w
  setStack : ∀ s l, f (s.setStack l) = (f s).setStack l
  setDisp : ∀ s d, f (s.setDisp d) = (f s).setDisp d
  setStatus : ∀ s x, f (s.setStatus x) = (f s).setStatus x

/-- What `f` must leave alone outside the core for instruction `i` not to see it: the field the instruction reads
or writes there, if it has one. -/
def BlindTo (f : State → State) : Instr → Prop
  | .shr _ _ | .shl _ _ => ∀ s, (f s).quirks.useYInShift = s.quirks.useYInShift
  | .jpV0 _ => ∀ s, (f s).quirks.useVxForJumpOffset = s.quirks.useVxForJumpOffset
  | .rnd _ _ => ∀ s, (f s).randCount = s.randCount ∧ f s.nextRand = (f s).nextRand
  | .skp _ | .sknp _ => ∀ s, (f s).keys = s.keys
  | .ldVxDt _ => ∀ s, (f s).dt = s.dt
  | .ldDtVx _ => ∀ s b, f (s.setDt b) = (f s).setDt b
  | .ldStVx _ => ∀ s b, f (s.setSt b) = (f s).setSt b
  | _ => True

namespace OutsideCore

variable {f : State → State} (hf : OutsideCore f)
include hf

/-! ### The shared operations -/

theorem V_eq (s : State) (r : Reg) : (f s).V r = s.V r := by simp only [State.V, hf.v]

theorem cell_eq (s : State) (k : Nat) : (f s).cell k = s.cell k := by simp only [State.cell, hf.disp]

theorem advance_comm (s : State) : f s.advance = (f s).advance := by simp only [State.advance, hf.setPc, hf.pc]

theorem setCell_comm (s : State) (k : Nat) (b : Bool) : f (s.setCell k b) = (f s).setCell k b := by
  simp only [State.setCell, hf.setDisp, hf.disp]

theorem fetchAddr_eq (s : State) : (f s).fetchAddr = s.fetchAddr := by simp only [State.fetchAddr, hf.pc]

theorem stackFull_eq (s : State) : (f s).stackFull = s.stackFull := by
  simp only [State.stackFull, hf.stackCapacity, hf.stack]

theorem writeThenFlag_comm (x : Reg) (result flag : Byte) (s : State) :
    f (writeThenFlag x result flag s) = writeThenFlag x result flag (f s) := by
  simp only [writeThenFlag, hf.setV]

theorem skipIf_comm (c : Bool) (s : State) : skipIf c (f s) = mapNext f (skipIf c s) := by
  cases c
  · rfl
  · simp [skipIf, hf.advance_comm]

theorem copyForShift_comm (hq : ∀ s, (f s).quirks.useYInShift = s.quirks.useYInShift) (x y : Reg) (s : State) :
    f (copyForShift x y s) = copyForShift x y (f s) := by
  simp only [copyForShift, hq, hf.V_eq]
  split
  · exact hf.setV ..
  · rfl

theorem jumpTarget_eq (hq : ∀ s, (f s).quirks.useVxForJumpOffset = s.quirks.useVxForJumpOffset) (nnn : Addr12)
    (s : State) : jumpTarget nnn (f s) = jumpTarget nnn s := by
  simp only [jumpTarget, jumpOffsetReg, hq, hf.V_eq]

/-! ### Calls, returns and drawing -/

theorem execCall_comm (nnn : Addr12) (s : State) : execCall nnn (f s) = mapNext f (execCall nnn s) := by
  simp only [execCall, push, hf.stackFull_eq, hf.fetchAddr_eq, hf.pc, hf.stack]
  split
  · simp [hf.setStatus]
  · simp [hf.setStack, hf.setPc]

theorem execRet_comm (s : State) : execRet (f s) = mapNext f (execRet s) := by
  simp only [execRet, pop, hf.stack, hf.fetchAddr_eq]
  cases s.stack with
  | nil => simp [hf.setStatus]
  | cons w rest => simp [hf.setStack, hf.setPc]

theorem spriteAddr_eq (s : State) (r : Nat) : spriteAddr (f s) r = spriteAddr s r := by
  simp only [spriteAddr, hf.i]

theorem firstRowOutside_eq (s : State) (n : Nat) : firstRowOutside (f s) n = firstRowOutside s n := by
  simp only [firstRowOutside, funext (hf.spriteAddr_eq s)]

theorem toggleCell_comm (px py : Nat) (s : State) : f (toggleCell px py s) = toggleCell px py (f s) := by
  simp only [toggleCell, hf.setCell_comm, hf.cell_eq]
  split
  · rw [hf.setV]
  · rfl

theorem drawColumns_comm (b : Byte) (x0 py : Nat) (cs : List Nat) (s : State) :
    f (drawColumns b x0 py cs s) = drawColumns b x0 py cs (f s) := by
  induction cs generalizing s with
  | nil => rfl
  | cons c cs ih =>
    simp only [drawColumns]
    split
    · rfl
    · rw [ih, apply_ite f, hf.toggleCell_comm]

theorem drawRows_comm (x0 y0 : Nat) (rs : List Nat) (s : State) :
    f (drawRows x0 y0 rs s) = drawRows x0 y0 rs (f s) := by
  induction rs generalizing s with
  | nil => rfl
  | cons r rs ih =>
    simp only [drawRows, hf.mem, hf.spriteAddr_eq]
    split
    · rfl
    · rw [ih, hf.drawColumns_comm]

theorem execDrw_comm (x y : Reg) (n : Nat) (s : State) : execDrw x y n (f s) = mapNext f (execDrw x y n s) := by
  simp only [execDrw, hf.firstRowOutside_eq, hf.V_eq]
  cases firstRowOutside s n with
  | none => simp [hf.drawRows_comm, hf.setV]
  | some a => simp [raise_next, hf.setStatus]

/-! ### Every instruction -/

/-- An instruction commutes with a change outside the core that it is blind to. -/
theorem exec_comm {i : Instr} (hi : BlindTo f i) (s : State) : exec i (f s) = mapNext f (exec i s) := by
  cases i with
  | cls => simp [exec, execCls, hf.setDisp]
  | ret => exact hf.execRet_comm s
  | jp nnn => simp [exec, execJp, hf.setPc]
  | call nnn => exact hf.execCall_comm nnn s
  | seImm x nn => simp only [exec, execSeImm, hf.V_eq, hf.skipIf_comm]
  | sneImm x nn => simp only [exec, execSneImm, hf.V_eq, hf.skipIf_comm]
  | seReg x y => simp only [exec, execSeReg, hf.V_eq, hf.skipIf_comm]
  | sneReg x y => simp only [exec, execSneReg, hf.V_eq, hf.skipIf_comm]
  | ldImm x nn => simp [exec, execLdImm, hf.setV]
  | addImm x nn => simp [exec, execAddImm, hf.setV, hf.V_eq]
  | ldReg x y => simp [exec, execLdReg, hf.setV, hf.V_eq]
  | orReg x y => simp [exec, execOrReg, hf.setV, hf.V_eq]
  | andReg x y => simp [exec, execAndReg, hf.setV, hf.V_eq]
  | xorReg x y => simp [exec, execXorReg, hf.setV, hf.V_eq]
  | addReg x y => simp [exec, execAddReg, hf.writeThenFlag_comm, hf.V_eq]
  | sub x y => simp [exec, execSub, hf.writeThenFlag_comm, hf.V_eq]
  | subn x y => simp [exec, execSubn, hf.writeThenFlag_comm, hf.V_eq]
  | shr x y => simp [exec, execShr, hf.writeThenFlag_comm, ← hf.copyForShift_comm hi, hf.V_eq]
  | shl x y => simp [exec, execShl, hf.writeThenFlag_comm, ← hf.copyForShift_comm hi, hf.V_eq]
  | ldI nnn => simp [exec, execLdI, hf.setI]
  | jpV0 nnn => simp [exec, execJpV0, hf.setPc, hf.jumpTarget_eq hi]
  | rnd x nn => simp [exec, execRnd, rand8, (hi _).1, (hi _).2, hf.setV]
  | drw x y n => exact hf.execDrw_comm x y n s
  | skp x => simp only [exec, execSkp, keyHeld, hi s, hf.V_eq, hf.skipIf_comm]
  | sknp x => simp only [exec, execSknp, keyHeld, hi s, hf.V_eq, hf.skipIf_comm]
  | ldVxDt x => simp [exec, execLdVxDt, hi s, hf.setV]
  | ldDtVx x => simp [exec, execLdDtVx, hi s, hf.V_eq]
  | ldStVx x => simp [exec, execLdStVx, hi s, hf.V_eq]

end OutsideCore

/-! ## The quirk bits -/

/-- The state with another value of the shift quirk. -/
def State.withShiftQuirk (b : Bool) (s : State) : State := { s with quirks := { s.quirks with useYInShift := b } }

/-- The state with another value of the jump quirk. -/
def State.withJumpQuirk (b : Bool) (s : State) : State :=
  { s with quirks := { s.quirks with useVxForJumpOffset := b } }

theorem withShiftQuirk_outsideCore (b : Bool) : OutsideCore (State.withShiftQuirk b) := by
  constructor <;> intros <;> rfl

theorem withJumpQuirk_outsideCore (b : Bool) : OutsideCore (State.withJumpQuirk b) := by
  constructor <;> intros <;> rfl

/-- Only the two shifts read the shift quirk (spec R76, R77). -/
theorem blindTo_withShiftQuirk (b : Bool) {i : Instr} (h : ∀ x y, i ≠ .shr x y ∧ i ≠ .shl x y) :
    BlindTo (State.withShiftQuirk b) i := by
  cases i with
  | shr x y => exact absurd rfl (h x y).1
  | shl x y => exact absurd rfl (h x y).2
  | rnd => exact fun _ => ⟨rfl, rfl⟩
  | jpV0 | skp | sknp | ldVxDt => exact fun _ => rfl
  | ldDtVx | ldStVx => exact fun _ _ => rfl
  | _ => trivial

/-- Only BNNN reads the jump quirk (spec R89). -/
theorem blindTo_withJumpQuirk (b : Bool) {i : Instr} (h : ∀ nnn, i ≠ .jpV0 nnn) :
    BlindTo (State.withJumpQuirk b) i := by
  cases i with
  | jpV0 nnn => exact absurd rfl (h nnn)
  | rnd => exact fun _ => ⟨rfl, rfl⟩
  | shr | shl | skp | sknp | ldVxDt => exact fun _ => rfl
  | ldDtVx | ldStVx => exact fun _ _ => rfl
  | _ => trivial

/-- Settles O38: changing a quirk bit is a change outside the core, which only that bit's own instructions see. -/
theorem quirkBitsActWhereNamed : Obligations.QuirkBitsActWhereNamed := fun _ s b =>
  ⟨fun h => (withShiftQuirk_outsideCore b).exec_comm (blindTo_withShiftQuirk b h) s,
    fun h => (withJumpQuirk_outsideCore b).exec_comm (blindTo_withJumpQuirk b h) s⟩

end Sys2Proof.Machine

/-! PROOFS. What an instruction can do to the state, said once (`Effect`, `exec_effect`), and what follows from it:
where each instruction leaves pc, what it leaves unchanged, and the invariant of every step. -/

namespace Sys2Proof.Machine

open Sys2Proof

/-! ## One instruction's effect -/

/-- The states an instruction can leave from `s`, the state after the fetch. Each case carries what the instruction
may write and where it leaves pc (`pcAfter`, spec R19). -/
inductive Effect (s : State) : Instr → State → Prop
  | registers {i : Instr} {v : Vector Byte 16} (hpc : pcAfter i s.fetchAddr s = s.pc)
      (hv : ∀ r, r ∉ writeSet i → State.V { s with v := v } r = s.V r) : Effect s i { s with v := v }
  | jump {i : Instr} {w : Word} (hpc : pcAfter i s.fetchAddr s = w) : Effect s i (s.setPc w)
  | call (nnn : Addr12) (hroom : s.stackFull = false) :
      Effect s (.call nnn) ((s.setStack (s.pc :: s.stack)).setPc (zext12 nnn))
  | callOverflow (nnn : Addr12) (hfull : s.stackFull = true) :
      Effect s (.call nnn) (s.setStatus (.faulted (.stackOverflow s.fetchAddr)))
  | ret {a : Word} {rest : List Word} (hstack : s.stack = a :: rest) : Effect s .ret ((s.setStack rest).setPc a)
  | retUnderflow (hempty : s.stack = []) :
      Effect s .ret (s.setStatus (.faulted (.stackUnderflow s.fetchAddr)))
  | index (nnn : Addr12) : Effect s (.ldI nnn) (s.setI (zext12 nnn))
  | random (x : Reg) (nn : Byte) : Effect s (.rnd x nn) (s.setV x (rand8 s &&& nn)).nextRand
  | clear : Effect s .cls (s.setDisp 0)
  | draw (x y : Reg) (n : Nat) {v : Vector Byte 16} {d : BitVec 2048} (hrows : firstRowOutside s n = none)
      (hv : ∀ r, r ≠ VF → State.V { s with v := v, disp := d } r = s.V r) :
      Effect s (.drw x y n) { s with v := v, disp := d }
  | drawOutside (x y : Reg) {n a : Nat} (hrow : firstRowOutside s n = some a) :
      Effect s (.drw x y n) (s.setStatus (.faulted (.outOfBounds a)))
  | delay (x : Reg) : Effect s (.ldDtVx x) (s.setDt (s.V x))
  | sound (x : Reg) : Effect s (.ldStVx x) (s.setSt (s.V x))

/-- The execute phase sees pc two bytes after the fetch address (spec R18). -/
theorem fetchAddr_add_two (s : State) : s.fetchAddr + 2 = s.pc := BitVec.sub_add_cancel _ _

/-- A taken skip leaves pc four bytes after the fetch address (spec R19). -/
theorem fetchAddr_add_four (s : State) : s.fetchAddr + 4 = s.pc + 2 := by
  rw [← fetchAddr_add_two s, BitVec.add_assoc]
  rfl

namespace Effect

variable {i : Instr} {s t : State}

theorem ofSetV {x : Reg} {b : Byte} (hpc : pcAfter i s.fetchAddr s = s.pc) (hx : x ∈ writeSet i) :
    Effect s i (s.setV x b) :=
  .registers hpc fun _ hr => State.setV_V_other s b (ne_of_mem_of_not_mem hx hr).symm

theorem ofWriteThenFlag {x : Reg} {result flag : Byte} (hpc : pcAfter i s.fetchAddr s = s.pc)
    (hw : writeSet i = [x, VF]) : Effect s i (writeThenFlag x result flag s) := by
  refine .registers hpc fun r hr => ?_
  obtain ⟨hrx, hrf⟩ : r ≠ x ∧ r ≠ VF := by simpa [hw] using hr
  exact (writeThenFlag_V x result flag s r).trans (by simp [hrx, hrf])

/-- A shift writes V[x] in its optional copy too, and nothing else. -/
theorem ofShift {x y : Reg} {result flag : Byte} (hpc : pcAfter i s.fetchAddr s = s.pc)
    (hw : writeSet i = [x, VF]) : Effect s i (writeThenFlag x result flag (copyForShift x y s)) := by
  have hframe : writeThenFlag x result flag (copyForShift x y s) =
      { s with v := (writeThenFlag x result flag (copyForShift x y s)).v } := by
    rw [writeThenFlag_frame, copyForShift_frame]
  rw [hframe]
  refine .registers hpc fun r hr => ?_
  obtain ⟨hrx, hrf⟩ : r ≠ x ∧ r ≠ VF := by simpa [hw] using hr
  exact (writeThenFlag_V x result flag _ r).trans (by simp [hrx, hrf, copyForShift_V])

theorem ofSkip {c : Bool} (hpc : pcAfter i s.fetchAddr s = if c then s.fetchAddr + 4 else s.fetchAddr + 2)
    (h : skipIf c s = .next t) : Effect s i t := by
  rcases skipIf_cases c s with ⟨rfl, hs⟩ | ⟨rfl, hs⟩ <;> rw [hs] at h <;> cases h
  · exact .jump (hpc.trans (fetchAddr_add_four s))
  · exact .jump (hpc.trans (fetchAddr_add_two s))

theorem ofCall {nnn : Addr12} (h : execCall nnn s = .next t) : Effect s (.call nnn) t := by
  unfold execCall at h
  rcases push_cases s s.pc with ⟨hfull, hp⟩ | ⟨hroom, hp⟩ <;> rw [hp] at h <;> cases h
  · exact .callOverflow nnn hfull
  · exact .call nnn hroom

theorem ofRet (h : execRet s = .next t) : Effect s .ret t := by
  unfold execRet at h
  rcases pop_cases s with ⟨hempty, hp⟩ | ⟨a, rest, hstack, hp⟩ <;> rw [hp] at h <;> cases h
  · exact .retUnderflow hempty
  · exact .ret hstack

theorem ofDrw {x y : Reg} {n : Nat} (h : execDrw x y n s = .next t) : Effect s (.drw x y n) t := by
  unfold execDrw at h
  split at h <;> cases h
  · exact .drawOutside x y ‹_›
  · rw [drawRows_frame]
    exact .draw x y n ‹_› fun r hr => (drawRows_V_other _ _ _ _ hr).trans (State.setV_V_other s 0 hr)

end Effect

/-- Every instruction does what `Effect` says. -/
theorem exec_effect {i : Instr} {s t : State} (h : exec i s = .next t) : Effect s i t := by
  have hpc := fetchAddr_add_two s
  cases i with
  | cls => cases h; exact .clear
  | ret => exact .ofRet h
  | jp nnn => cases h; exact .jump rfl
  | call nnn => exact .ofCall h
  | seImm | sneImm | seReg | sneReg | skp => exact .ofSkip (by simp [pcAfter]) h
  | sknp x => exact .ofSkip (by cases hk : keyHeld s (s.V x) <;> simp [pcAfter, hk]) h
  | jpV0 nnn => cases h; exact .jump rfl
  | ldI nnn => cases h; exact .index nnn
  | rnd x nn => cases h; exact .random x nn
  | drw x y n => exact .ofDrw h
  | ldDtVx x => cases h; exact .delay x
  | ldStVx x => cases h; exact .sound x
  | ldImm x _ | addImm x _ | ldReg x _ | orReg x _ | andReg x _ | xorReg x _ | ldVxDt x =>
    cases h; exact .ofSetV hpc List.mem_cons_self
  | addReg | sub | subn => cases h; exact .ofWriteThenFlag hpc rfl
  | shr | shl => cases h; exact .ofShift hpc rfl

namespace Effect

variable {i : Instr} {s t : State} (h : Effect s i t)
include h

/-- pc is where R19 says, unless the instruction raised, which leaves pc. -/
theorem pc : t.pc = pcAfter i s.fetchAddr s ∨ t.status ≠ .running ∧ t.pc = s.pc := by
  have hpc := fetchAddr_add_two s
  cases h with
  | registers h1 => exact .inl h1.symm
  | jump h1 => exact .inl h1.symm
  | ret hstack => exact .inl (by simp [pcAfter, hstack])
  | callOverflow | retUnderflow | drawOutside => exact .inr ⟨nofun, rfl⟩
  | call => exact .inl rfl
  | _ => exact .inl hpc.symm

theorem mem : t.mem = s.mem := by cases h <;> rfl

theorem stackCapacity : t.stackCapacity = s.stackCapacity := by cases h <;> rfl

/-- The stack is kept, or pc is pushed where there is room, or the top is popped (spec R26 to R28). -/
theorem stack : t.stack = s.stack ∨ (s.stackFull = false ∧ t.stack = s.pc :: s.stack) ∨
    ∃ a, s.stack = a :: t.stack := by
  cases h with
  | call nnn hroom => exact .inr (.inl ⟨hroom, rfl⟩)
  | ret hstack => exact .inr (.inr ⟨_, hstack⟩)
  | _ => exact .inl rfl

/-- Registers outside the write set of R14 are kept. -/
theorem V_of_not_mem_writeSet {r : Reg} (hr : r ∉ writeSet i) : t.V r = s.V r := by
  cases h with
  | registers _ hv => exact hv r hr
  | draw x y n _ hv => exact hv r (by simpa [writeSet] using hr)
  | random x nn => exact State.setV_V_other s _ (by simpa [writeSet] using hr)
  | _ => rfl

end Effect

/-! ## Where an instruction leaves pc -/

/-- A fetched word that decodes is executed, in the state with pc advanced (spec R53). -/
theorem step_of_decode {s : State} {w : Word} {i : Instr} (hs : s.status = .running) (hf : fetch s = .ok w)
    (hd : decodeWord w = .ok i) : step s = exec i s.advance := by
  simp only [step_running s hs, hf, orRaise_ok, execWord, hd]

/-- The fetch's advance of pc does not move where an instruction goes. -/
theorem pcAfter_advance (i : Instr) (a : Word) (s : State) : pcAfter i a s.advance = pcAfter i a s := by
  cases i <;> rfl

/-- Settles O9: the effect of the instruction, seen from the state before the fetch. -/
theorem pcAfterSuccessfulStep : Obligations.PcAfterSuccessfulStep := by
  intro s t w i hs hf hd h ht
  rw [step_of_decode hs hf hd] at h
  have hpc := (exec_effect h).pc.resolve_right fun hfault => hfault.1 ht
  rwa [fetchAddr_advance, pcAfter_advance] at hpc

/-! ## The invariant of a step -/

/-- What a step can do: raise the fetch's error, raise IllegalInstruction, or run the decoded instruction (spec R53). -/
theorem step_cases {s t : State} (h : step s = .next t) :
    (∃ e, fetch s = .error e ∧ t = s.setStatus (.faulted e)) ∨
    ∃ w, fetch s = .ok w ∧ s.pc.toNat ≤ 0xFFE ∧
      ((∃ e, decodeWord w = .error e ∧ t = s.advance.setStatus (.faulted (.illegalInstruction s.pc w))) ∨
       ∃ i, decodeWord w = .ok i ∧ exec i s.advance = .next t) := by
  cases hs : s.status with
  | faulted e => rw [step_faulted s e hs] at h; cases h
  | running =>
    rw [step_running s hs] at h
    rcases fetch_cases s with ⟨hle, hf⟩ | ⟨_, hf⟩ | ⟨_, hf⟩ <;> rw [hf] at h
    · refine .inr ⟨_, hf, hle, ?_⟩
      rw [orRaise_ok, execWord] at h
      split at h
      · exact .inr ⟨_, ‹_›, h⟩
      · rw [raiseIllegal, raise_next, fetchAddr_advance] at h
        cases h
        exact .inl ⟨_, ‹_›, rfl⟩
    all_goals
      cases h
      exact .inl ⟨_, hf, rfl⟩

/-- No instruction fetched inside memory leaves pc above 0xFFF + 0xFF, the farthest jump with offset (spec R20). -/
theorem pcAfter_le {s : State} {a : Word} (i : Instr) (ha : a.toNat ≤ 0xFFE)
    (hstack : ∀ r ∈ s.stack, r.toNat ≤ 0x1000) : (pcAfter i a s).toNat ≤ 0x10FE := by
  have h2 : (a + 2).toNat ≤ 0x10FE := by bv_omega
  have h4 : (a + 4).toNat ≤ 0x10FE := by bv_omega
  have hz (nnn : Addr12) : (zext12 nnn).toNat ≤ 0xFFF := by rw [zext12_toNat]; omega
  cases i with
  | jp nnn | call nnn => exact (hz nnn).trans (by decide)
  | ret =>
    simp only [pcAfter]
    cases hs : s.stack with
    | nil => decide
    | cons r rest => exact (hstack r (by simp [hs])).trans (by decide)
  | jpV0 nnn =>
    have hn := hz nnn
    simp only [pcAfter, BitVec.toNat_add, BitVec.toNat_setWidth]
    omega
  | seImm | sneImm | seReg | sneReg | skp | sknp => simp only [pcAfter]; split <;> assumption
  | _ => exact h2

theorem engineInv_setStatus {s : State} (h : EngineInv s) (x : Status) : EngineInv (s.setStatus x) := by
  obtain ⟨hmem, hpc, hstack, hdepth⟩ := h
  exact ⟨hmem, hpc, hstack, hdepth⟩

/-- A fetch inside memory leaves pc at most 0x1000. -/
theorem engineInv_advance {s : State} (h : EngineInv s) (hpc : s.pc.toNat ≤ 0xFFE) : EngineInv s.advance := by
  obtain ⟨hmem, _, hstack, hdepth⟩ := h
  exact ⟨hmem, show (s.pc + 2).toNat ≤ 0x10FE by bv_omega, hstack, hdepth⟩

/-- An instruction fetched inside memory keeps the invariant. -/
theorem engineInv_exec {s t : State} {i : Instr} (h : EngineInv s) (ha : s.fetchAddr.toNat ≤ 0xFFE)
    (hexec : exec i s = .next t) : EngineInv t := by
  obtain ⟨hmem, hpc, hstack, hdepth⟩ := h
  have heff := exec_effect hexec
  refine ⟨by rwa [heff.mem], ?_, ?_, ?_⟩
  · rcases heff.pc with ht | ⟨_, ht⟩ <;> rw [ht]
    exacts [pcAfter_le i ha hstack, hpc]
  · rcases heff.stack with ht | ⟨_, ht⟩ | ⟨a, ht⟩
    · rwa [ht]
    · have hpushed : s.pc.toNat ≤ 0x1000 := by
        rw [← fetchAddr_add_two]
        bv_omega
      simpa [ht] using ⟨hpushed, hstack⟩
    · exact fun r hr => hstack r (by simp [ht, hr])
  · intro c hc
    rw [heff.stackCapacity] at hc
    have hle := hdepth c hc
    rcases heff.stack with ht | ⟨hroom, ht⟩ | ⟨a, ht⟩
    · rwa [ht]
    · rw [ht]
      exact (stackFull_eq_false s).mp hroom c hc
    · rw [ht] at hle
      exact (Nat.le_succ _).trans hle

/-- Settles O44: each of the things a step can do keeps the invariant. -/
theorem stepKeepsInvariant : Obligations.StepKeepsInvariant := by
  intro s t hinv h
  rcases step_cases h with ⟨e, _, rfl⟩ | ⟨w, _, hpc, ⟨e, _, rfl⟩ | ⟨i, _, hexec⟩⟩
  · exact engineInv_setStatus hinv _
  · exact engineInv_setStatus (engineInv_advance hinv hpc) _
  · exact engineInv_exec (engineInv_advance hinv hpc) (by rwa [fetchAddr_advance]) hexec

/-! ## Which instructions write what -/

/-- Settles O35, one case of the effect after another. -/
theorem onlyTheNamedInstructionsWrite : Obligations.OnlyTheNamedInstructionsWrite := by
  intro i s t h
  cases exec_effect h <;> simp

end Sys2Proof.Machine

/-! PROOFS. Noninterference of the registers (spec R14): an instruction run in two states that agree on its read set
gives two states that agree on its write set. -/

namespace Sys2Proof.Machine

open Sys2Proof

/-! ## States that agree on some registers -/

/-- `s1` is `s` but for its registers, and has those of `l` in common with it. -/
def AgreeOn (l : List Reg) (s s1 : State) : Prop := s1 = { s with v := s1.v } ∧ ∀ r ∈ l, s1.V r = s.V r

/-- Two answers are next states that agree on the registers of `l` and on everything but registers. -/
inductive AnswersAgree (l : List Reg) : Result → Result → Prop
  | next {t t1 : State} (h : AgreeOn l t t1) : AnswersAgree l (.next t) (.next t1)

namespace AgreeOn

variable {l : List Reg} {s s1 : State} (h : AgreeOn l s s1)

theorem mono {m : List Reg} (hm : m ⊆ l) (h : AgreeOn l s s1) : AgreeOn m s s1 := ⟨h.1, fun r hr => h.2 r (hm hr)⟩

include h

theorem V_eq (r : Reg) (hr : r ∈ l := by simp [readSet]) : s1.V r = s.V r := h.2 r hr

/-- What does not look at the registers is the same in both states. -/
theorem congr {α : Type} (g : State → α) (hg : ∀ s v, g { s with v := v } = g s := by intros; rfl) :
    g s1 = g s := by
  rw [h.1, hg]

/-- A change that neither reads nor writes registers keeps the agreement. -/
theorem map (f : State → State) (hf : ∀ s v, f { s with v := v } = { f s with v := v } := by intros; rfl) :
    AgreeOn l (f s) (f s1) := by
  have hv (u : State) : (f u).v = u.v := by rw [show f u = { f u with v := u.v } from hf u u.v]
  refine ⟨by rw [h.1, hf], fun r hr => ?_⟩
  simpa only [State.V, hv] using h.2 r hr

/-- A register written with one value in both states is one more they agree on. -/
theorem setV (r : Reg) (b : Byte) : AgreeOn (r :: l) (s.setV r b) (s1.setV r b) := by
  obtain ⟨hframe, hv⟩ := h
  refine ⟨by rw [hframe]; rfl, fun q hq => ?_⟩
  simp only [State.setV_V]
  split
  · rfl
  · exact hv q (List.mem_of_ne_of_mem ‹_› hq)

theorem setV_only (r : Reg) (b : Byte) : AgreeOn [r] (s.setV r b) (s1.setV r b) := (h.setV r b).mono (by simp)

theorem writeThenFlag (x : Reg) (result flag : Byte) :
    AgreeOn [x, VF] (writeThenFlag x result flag s) (writeThenFlag x result flag s1) :=
  ((h.setV x result).setV VF flag).mono (by simp)

end AgreeOn

/-! ## The shared operations -/

section

variable {s s1 : State}

theorem skipIf_agree (c : Bool) (h : AgreeOn [] s s1) : AnswersAgree [] (skipIf c s) (skipIf c s1) := by
  cases c
  · exact .next h
  · exact .next (h.map State.advance)

/-- The optional copy of a shift reads V[y] only where it copies, and decides V[x] (spec R14). -/
theorem copyForShift_agree {x y : Reg} (h : AgreeOn (if s.quirks.useYInShift then [x, y] else [x]) s s1) :
    AgreeOn [x] (copyForShift x y s) (copyForShift x y s1) := by
  simp only [copyForShift, h.congr State.quirks]
  by_cases hcopy : s.quirks.useYInShift = true
  · rw [if_pos hcopy] at h
    rw [if_pos hcopy, if_pos hcopy, h.V_eq y]
    exact h.setV_only x _
  · rw [if_neg hcopy] at h
    rwa [if_neg hcopy, if_neg hcopy]

theorem jumpTarget_agree {nnn : Addr12} (h : AgreeOn [jumpOffsetReg nnn s] s s1) :
    jumpTarget nnn s1 = jumpTarget nnn s := by
  rw [jumpTarget, h.congr (jumpOffsetReg nnn), h.V_eq _, jumpTarget]

theorem execCall_agree (nnn : Addr12) (h : AgreeOn [] s s1) : AnswersAgree [] (execCall nnn s) (execCall nnn s1) := by
  simp only [execCall, push, h.congr State.pc, h.congr State.stack, h.congr State.stackFull, h.congr State.fetchAddr]
  split
  · exact .next (h.map (State.setStatus · _))
  · exact .next (h.map fun u => (u.setStack _).setPc _)

theorem execRet_agree (h : AgreeOn [] s s1) : AnswersAgree [] (execRet s) (execRet s1) := by
  simp only [execRet, pop, h.congr State.stack, h.congr State.fetchAddr]
  cases s.stack with
  | nil => exact .next (h.map (State.setStatus · _))
  | cons a rest => exact .next (h.map fun u => (u.setStack rest).setPc a)

theorem toggleCell_agree (px py : Nat) (h : AgreeOn [VF] s s1) :
    AgreeOn [VF] (toggleCell px py s) (toggleCell px py s1) := by
  simp only [toggleCell, h.congr (State.cell · (cellIndex px py))]
  refine AgreeOn.map ?_ (State.setCell · _ _)
  split
  · exact h.setV_only VF 1
  · exact h

theorem drawColumns_agree (b : Byte) (x0 py : Nat) (cs : List Nat) (h : AgreeOn [VF] s s1) :
    AgreeOn [VF] (drawColumns b x0 py cs s) (drawColumns b x0 py cs s1) := by
  induction cs generalizing s s1 with
  | nil => exact h
  | cons c cs ih =>
    simp only [drawColumns]
    split
    · exact h
    · refine ih ?_
      split
      · exact toggleCell_agree _ _ h
      · exact h

theorem drawRows_agree (x0 y0 : Nat) (rs : List Nat) (h : AgreeOn [VF] s s1) :
    AgreeOn [VF] (drawRows x0 y0 rs s) (drawRows x0 y0 rs s1) := by
  induction rs generalizing s s1 with
  | nil => exact h
  | cons r rs ih =>
    have hbyte := h.congr (fun u => Memory.byte u.mem (spriteAddr u r))
    simp only [drawRows, hbyte]
    split
    · exact h
    · exact ih (drawColumns_agree _ _ _ _ h)

/-- A sprite that fits in memory is drawn from the two coordinates alone; V[0xF] is reset before it is read. -/
theorem execDrw_agree {x y : Reg} {n : Nat} (h : AgreeOn [x, y] s s1) (hsafe : SafeNext (execDrw x y n s)) :
    AnswersAgree [VF] (execDrw x y n s) (execDrw x y n s1) := by
  simp only [execDrw, h.congr (firstRowOutside · n), h.V_eq x, h.V_eq y] at hsafe ⊢
  split at hsafe
  · obtain ⟨t, ht, hrun⟩ := hsafe
    cases ht
    cases hrun
  · exact .next (drawRows_agree _ _ _ (h.setV_only VF 0))

/-! ## Every instruction -/

/-- Run in states that agree on its read set, an instruction that succeeds leaves states that agree on its write
set and on everything but registers (spec R14). -/
theorem exec_agree {i : Instr} (h : AgreeOn (readSet i s) s s1) (hsafe : SafeNext (exec i s)) :
    AnswersAgree (writeSet i) (exec i s) (exec i s1) := by
  cases i with
  | cls => exact .next (h.map (State.setDisp · 0))
  | jp nnn => exact .next (h.map (State.setPc · (zext12 nnn)))
  | ldI nnn => exact .next (h.map (State.setI · (zext12 nnn)))
  | ret => exact execRet_agree h
  | call nnn => exact execCall_agree nnn h
  | seImm x nn | sneImm x nn =>
    simp only [exec, execSeImm, execSneImm, h.V_eq x]
    exact skipIf_agree _ (h.mono (List.nil_subset _))
  | seReg x y | sneReg x y =>
    simp only [exec, execSeReg, execSneReg, h.V_eq x, h.V_eq y]
    exact skipIf_agree _ (h.mono (List.nil_subset _))
  | skp x | sknp x =>
    simp only [exec, execSkp, execSknp, h.V_eq x, h.congr (keyHeld · (s.V x))]
    exact skipIf_agree _ (h.mono (List.nil_subset _))
  | ldImm x nn => exact .next (h.setV_only x nn)
  | ldVxDt x =>
    simp only [exec, execLdVxDt, h.congr State.dt]
    exact .next (h.setV_only x _)
  | rnd x nn =>
    simp only [exec, execRnd, h.congr rand8]
    exact .next ((h.setV_only x _).map State.nextRand)
  | addImm x nn =>
    simp only [exec, execAddImm, h.V_eq x]
    exact .next (h.setV_only x _)
  | ldReg x y =>
    simp only [exec, execLdReg, h.V_eq y]
    exact .next (h.setV_only x _)
  | orReg x y | andReg x y | xorReg x y =>
    simp only [exec, execOrReg, execAndReg, execXorReg, h.V_eq x, h.V_eq y]
    exact .next (h.setV_only x _)
  | addReg x y | sub x y | subn x y =>
    simp only [exec, execAddReg, execSub, execSubn, h.V_eq x, h.V_eq y]
    exact .next (h.writeThenFlag x _ _)
  | shr x y | shl x y =>
    have hcopy := copyForShift_agree h
    simp only [exec, execShr, execShl, hcopy.V_eq x]
    exact .next (hcopy.writeThenFlag x _ _)
  | jpV0 nnn =>
    have hread : readSet (.jpV0 nnn) s = [jumpOffsetReg nnn s] := by
      simp only [readSet, jumpOffsetReg]
      split <;> rfl
    simp only [exec, execJpV0, jumpTarget_agree (hread ▸ h)]
    exact .next ((h.mono (List.nil_subset _)).map (State.setPc · _))
  | drw x y n => exact execDrw_agree h hsafe
  | ldDtVx x =>
    simp only [exec, execLdDtVx, h.V_eq x]
    exact .next ((h.mono (List.nil_subset _)).map (State.setDt · _))
  | ldStVx x =>
    simp only [exec, execLdStVx, h.V_eq x]
    exact .next ((h.mono (List.nil_subset _)).map (State.setSt · _))

end

/-- Settles O34: the write set bounds the effect, and the read set decides it. -/
theorem registerReadAndWriteSets : Obligations.RegisterReadAndWriteSets := by
  intro i s t _ hexec hrun
  refine ⟨fun r hr => (exec_effect hexec).V_of_not_mem_writeSet hr, fun s1 hframe hread => ?_⟩
  have hagree := exec_agree ⟨hframe, hread⟩ ⟨t, hexec, hrun⟩
  rw [hexec] at hagree
  generalize exec i s1 = r1 at hagree
  obtain ⟨hframe1, hwrite⟩ := hagree
  exact ⟨_, rfl, hwrite, hframe1⟩

end Sys2Proof.Machine

/-! PROOFS. Key updates and ticks are changes outside the core, which only the key skips and the timer transfers see. -/

namespace Sys2Proof.Machine

open Sys2Proof

theorem setPressedKeys_outsideCore (k : BitVec 16) : OutsideCore (setPressedKeys k) := by
  constructor <;> intros <;> rfl

/-- Only EX9E and EXA1 read the key set (spec R30). -/
theorem blindTo_setPressedKeys (k : BitVec 16) {i : Instr} (h : ∀ x, i ≠ .skp x ∧ i ≠ .sknp x) :
    BlindTo (setPressedKeys k) i := by
  cases i with
  | skp x => exact absurd rfl (h x).1
  | sknp x => exact absurd rfl (h x).2
  | rnd => exact fun _ => ⟨rfl, rfl⟩
  | shr | shl | jpV0 | ldVxDt => exact fun _ => rfl
  | ldDtVx | ldStVx => exact fun _ _ => rfl
  | _ => trivial

/-- Settles O36: replacing the keys is a change outside the core, which only the key skips see. -/
theorem onlyKeySkipsReadKeys : Obligations.OnlyKeySkipsReadKeys := fun _ s k h =>
  (setPressedKeys_outsideCore k).exec_comm (blindTo_setPressedKeys k h) s

theorem tickTimers_outsideCore : OutsideCore tickTimers := by
  constructor <;> intros <;> rfl

/-- Only FX07, FX15 and FX18 touch the timers (spec R25). -/
theorem blindTo_tickTimers {i : Instr} (h : ∀ x, i ≠ .ldVxDt x ∧ i ≠ .ldDtVx x ∧ i ≠ .ldStVx x) :
    BlindTo tickTimers i := by
  cases i with
  | ldVxDt x => exact absurd rfl (h x).1
  | ldDtVx x => exact absurd rfl (h x).2.1
  | ldStVx x => exact absurd rfl (h x).2.2
  | rnd => exact fun _ => ⟨rfl, rfl⟩
  | shr | shl | jpV0 | skp | sknp => exact fun _ => rfl
  | _ => trivial

/-- Settles O37: a tick is a change outside the core, which only the timer transfers see. -/
theorem ticksCommuteWithOtherInstructions : Obligations.TicksCommuteWithOtherInstructions := fun _ s h =>
  tickTimers_outsideCore.exec_comm (blindTo_tickTimers h) s

end Sys2Proof.Machine

/-! PROOFS. The state construction leaves. -/

namespace Sys2Proof.Machine

open Sys2Proof

theorem construct_memRead (p : Construction) {a : Nat} (ha : a < 4096) :
    memRead (construct p) a = .ok (p.byteAt a) := by
  have hin : ∀ b ∈ List.range Config.memSize, b < 4096 := fun b hb => List.mem_range.mp hb
  rw [memRead_inside _ ha, construct_mem, writeAll_byte _ _ _ rfl hin, if_pos (List.mem_range.mpr ha)]

theorem byteAt_font (p : Construction) (k : Fin 80) : p.byteAt (0x050 + k.val) = p.font k := by
  simp [Construction.byteAt, Config.fontBase]

theorem byteAt_outside_font (p : Construction) {a : Nat} (h : a < 0x050 ∨ 0x0A0 ≤ a) :
    p.byteAt a = p.resetMem a := by
  rw [Construction.byteAt, dif_neg]
  simp only [Config.fontBase]
  omega

/-- Settles O43: construction writes every byte into an empty, canonical memory; the rest is immediate. -/
theorem constructionMeetsInvariant : Obligations.ConstructionMeetsInvariant := fun p =>
  { memWf := by rw [construct_mem]; exact writeAll_wf _ _ _ rfl
    pcBound := show (0x200 : Word).toNat ≤ 0x10FE by decide
    stackBound := nofun
    depthBound := fun c _ => Nat.zero_le c }

/-- Settles O47: memory by `construct_memRead`, the other fields as construction sets them. -/
theorem constructionState : Obligations.ConstructionState := fun p =>
  ⟨rfl, rfl, rfl,
    fun k => (construct_memRead p (by omega)).trans (by rw [byteAt_font]),
    fun a ha hout => (construct_memRead p ha).trans (by rw [byteAt_outside_font p hout]),
    fun r => Vector.getElem_ofFn r.isLt, rfl, rfl, rfl, fun _ _ => rfl, rfl, rfl, rfl⟩

/-! ## The model's reset state -/

/-- The model's parameters give every byte the value it reads as when unlisted. -/
theorem byteAt_default (a : Nat) : Construction.default.byteAt a = Memory.unlisted a := by
  unfold Construction.byteAt Memory.unlisted
  split
  · rw [if_pos (by simp only [Config.fontBase, Config.fontSize] at *; omega)]
    rfl
  · rw [if_neg (by simp only [Config.fontBase, Config.fontSize] at *; omega)]
    rfl

/-- Writing to an empty memory what it reads as leaves it empty. -/
theorem writeAll_unlisted (f : Nat → Byte) (hf : ∀ a, f a = Memory.unlisted a) (as : List Nat) :
    writeAll f as [] = [] := by
  induction as with
  | nil => rfl
  | cons a as ih =>
    have hw : Memory.write [] a (f a) = [] := by simp [Memory.write, Memory.insert, Memory.cell, hf]
    rw [writeAll, hw, ih]

/-- Settles O48: the memory is empty by `writeAll_unlisted`; the other fields are the same values. -/
theorem resetIsDefaultConstruction : Obligations.ResetIsDefaultConstruction := by
  have hmem := writeAll_unlisted _ byteAt_default (List.range Config.memSize)
  have hv : Vector.ofFn Construction.default.resetV = Vector.replicate 16 0 := rfl
  unfold Obligations.ResetIsDefaultConstruction construct State.reset
  rw [hmem, hv]
  rfl

/-- Settles O42: reset is a construction. -/
theorem resetMeetsInvariant : Obligations.ResetMeetsInvariant := by
  unfold Obligations.ResetMeetsInvariant
  rw [← resetIsDefaultConstruction]
  exact constructionMeetsInvariant _

end Sys2Proof.Machine

/-! PROOFS. Memory (spec 20_memory): the checks on fetch and DRW, the canonical form, and that no step writes it. -/

namespace Sys2Proof.Machine

open Sys2Proof

/-! ## Accesses outside memory -/

/-- A running engine whose fetch fails raises the fetch's error, pc not advanced (spec R44, R105). -/
theorem step_of_fetch_error {s : State} {e : FatalError} (hs : s.status = .running) (hf : fetch s = .error e) :
    step s = .next (s.setStatus (.faulted e)) := by
  rw [step_running s hs, hf, orRaise_error]

/-- Settles O7: each clause selects one case of the fetch. -/
theorem fetchOutsideMemoryRaises : Obligations.FetchOutsideMemoryRaises := by
  intro s hs
  rcases fetch_cases s with ⟨hpc, hf⟩ | ⟨hpc, hf⟩ | ⟨hpc, hf⟩
  · exact ⟨fun _ => ⟨_, hf⟩, fun h => by omega, fun h => by omega⟩
  · exact ⟨fun h => by omega, fun _ => step_of_fetch_error hs hf, fun h => by omega⟩
  · exact ⟨fun h => by omega, fun h => by omega, fun _ => step_of_fetch_error hs hf⟩

/-- DRW with a row outside memory raises before any other effect (spec R45, R92). -/
theorem execDrw_of_row_outside (x y : Reg) {s : State} {n a : Nat} (hrow : firstRowOutside s n = some a) :
    execDrw x y n s = .next (s.setStatus (.faulted (.outOfBounds a))) := by
  simp only [execDrw, hrow, raise_next]

/-- Settles O28: the check reports the least row outside. -/
theorem drawOutsideMemoryRaises : Obligations.DrawOutsideMemoryRaises := fun s x y n r hr hout hin =>
  execDrw_of_row_outside x y (firstRowOutside_least s n r hr hout hin)

/-! ## Canonical memories -/

/-- A listed address does not read as if it were unlisted. -/
theorem Memory.byte_head_ne_unlisted {lo a : Nat} {v : Byte} {rest : List Host.Cell}
    (h : Memory.wfFrom lo ((a, v) :: rest) = true) : Memory.byte ((a, v) :: rest) a ≠ Memory.unlisted a := by
  obtain ⟨_, _, hv, _⟩ := (Memory.wfFrom_cons lo a v rest).mp h
  simpa [Memory.byte] using hv

/-- Of two canonical lists that read alike, neither starts above the other. -/
theorem Memory.head_le_head {lo a b : Nat} {u v : Byte} {rest rest1 : List Host.Cell}
    (h : Memory.wfFrom lo ((a, v) :: rest) = true) (h1 : Memory.wfFrom lo ((b, u) :: rest1) = true)
    (halike : ∀ c < 4096, Memory.byte ((a, v) :: rest) c = Memory.byte ((b, u) :: rest1) c) : b ≤ a := by
  by_contra hlt
  obtain ⟨_, ha, _⟩ := (Memory.wfFrom_cons lo a v rest).mp h
  obtain ⟨_, hcell⟩ := (Memory.wfFrom_cons lo b u rest1).mp h1
  have hfromB : Memory.wfFrom b ((b, u) :: rest1) = true := (Memory.wfFrom_cons b b u rest1).mpr ⟨le_rfl, hcell⟩
  refine Memory.byte_head_ne_unlisted h ((halike a ha).trans ?_)
  exact Memory.byte_below _ hfromB (by omega)

/-- Canonical lists with equal first cells that read alike have tails that read alike. -/
theorem Memory.tails_alike {a : Nat} {v : Byte} {rest rest1 : List Host.Cell}
    (h : Memory.wfFrom (a + 1) rest = true) (h1 : Memory.wfFrom (a + 1) rest1 = true)
    (halike : ∀ c < 4096, Memory.byte ((a, v) :: rest) c = Memory.byte ((a, v) :: rest1) c) :
    ∀ c < 4096, Memory.byte rest c = Memory.byte rest1 c := by
  intro c hc
  by_cases hca : c = a
  · rw [Memory.byte_below rest h (by omega), Memory.byte_below rest1 h1 (by omega)]
  · simpa [Memory.byte, hca] using halike c hc

/-- Lists canonical from one address on that read alike are equal: cell by cell, each first address is the least at
which memory differs from its unlisted value. -/
theorem Memory.eq_of_wfFrom {lo : Nat} {m m1 : List Host.Cell} (h : Memory.wfFrom lo m = true)
    (h1 : Memory.wfFrom lo m1 = true) (halike : ∀ a < 4096, Memory.byte m a = Memory.byte m1 a) : m = m1 := by
  induction m generalizing lo m1 with
  | nil =>
    cases m1 with
    | nil => rfl
    | cons c rest1 =>
      obtain ⟨_, hb, _⟩ := (Memory.wfFrom_cons lo c.1 c.2 rest1).mp h1
      exact absurd (halike c.1 hb).symm (Memory.byte_head_ne_unlisted h1)
  | cons c rest ih =>
    obtain ⟨a, v⟩ := c
    obtain ⟨_, ha, _, hrest⟩ := (Memory.wfFrom_cons lo a v rest).mp h
    cases m1 with
    | nil => exact absurd (halike a ha) (Memory.byte_head_ne_unlisted h)
    | cons c1 rest1 =>
      obtain ⟨b, u⟩ := c1
      obtain rfl : a = b := le_antisymm
        (Memory.head_le_head h1 h fun c hc => (halike c hc).symm) (Memory.head_le_head h h1 halike)
      obtain rfl : v = u := by simpa [Memory.byte] using halike a ha
      obtain ⟨_, _, _, hrest1⟩ := (Memory.wfFrom_cons lo a v rest1).mp h1
      rw [ih hrest hrest1 (Memory.tails_alike hrest hrest1 halike)]

/-- Settles O46: the canonical form is that of lists canonical from address 0 on. -/
theorem canonicalMemoryIsUnique : Obligations.CanonicalMemoryIsUnique := fun _ _ h h1 halike =>
  Memory.eq_of_wfFrom h h1 halike

/-! ## No step writes memory -/

/-- A read depends on memory alone. -/
theorem memRead_congr {s t : State} (h : t.mem = s.mem) (a : Nat) : memRead t a = memRead s a := by
  rw [memRead, h, memRead]

/-- A step keeps memory, whether it raises or executes an instruction (spec R41). -/
theorem step_mem {s t : State} (h : step s = .next t) : t.mem = s.mem := by
  rcases step_cases h with ⟨e, _, rfl⟩ | ⟨w, _, _, ⟨e, _, rfl⟩ | ⟨i, _, hexec⟩⟩
  · rfl
  · rfl
  · exact (exec_effect hexec).mem

theorem run_succ {M : Host.Core} {k : Nat} {s t : M.State} (h : M.run (k + 1) s = .next t) :
    ∃ u, M.step s = .next u ∧ M.run k u = .next t := by
  rw [Host.Core.run] at h
  split at h
  · exact ⟨_, ‹_›, h⟩
  · cases h
  · cases h

/-- What every step keeps, every run keeps. -/
theorem run_keeps {M : Host.Core} {P : M.State → Prop} (hstep : ∀ s t, P s → M.step s = .next t → P t) {k : Nat}
    {s t : M.State} (hs : P s) (h : M.run k s = .next t) : P t := by
  induction k generalizing s with
  | zero => cases h; exact hs
  | succ k ih =>
    obtain ⟨u, hu, hrun⟩ := run_succ h
    exact ih (hstep s u hs hu) hrun

/-- Settles O33: an instruction's effect and a step keep memory, so every run does. -/
theorem noInstructionWritesMemory : Obligations.NoInstructionWritesMemory := by
  refine ⟨fun i s t h a => memRead_congr (exec_effect h).mem a, fun k s t h a => memRead_congr ?_ a⟩
  exact run_keeps (M := core) (P := fun u : State => u.mem = s.mem)
    (fun _ _ hu hstep => (step_mem hstep).trans hu) rfl h

end Sys2Proof.Machine

/-! PROOFS. Schedules of the host's operations (`hostRun`): a completed schedule taken apart, and when `load` is
still admitted (spec R51, R129). -/

namespace Sys2Proof.Machine

open Sys2Proof

/-! ## A completed schedule taken apart -/

theorem hostRun_cons {b : Boot} {op : HostOp} {ops : List HostOp} {s : State} {r : Boot × State}
    (h : hostRun b (op :: ops) s = .next r) :
    ∃ b1 s1, hostOp b op s = .next (b1, s1) ∧ hostRun b1 ops s1 = .next r := by
  rw [hostRun] at h
  split at h
  · exact ⟨_, _, ‹_›, h⟩
  · cases h
  · cases h

theorem hostRun_append {b : Boot} {ops ops1 : List HostOp} {s : State} {r : Boot × State}
    (h : hostRun b (ops ++ ops1) s = .next r) :
    ∃ b1 s1, hostRun b ops s = .next (b1, s1) ∧ hostRun b1 ops1 s1 = .next r := by
  induction ops generalizing b s with
  | nil => exact ⟨b, s, rfl, h⟩
  | cons op ops ih =>
    obtain ⟨b1, s1, hop, hrun⟩ := hostRun_cons h
    obtain ⟨b2, s2, hops, hrest⟩ := ih hrun
    exact ⟨b2, s2, by rw [hostRun, hop]; exact hops, hrest⟩

/-! ## When `load` is admitted -/

/-- After a step `load` is no longer admitted (spec R51). -/
theorem hostOp_step_begun {b b1 : Boot} {s t : State} (h : hostOp b .step s = .next (b1, t)) : b1 = .begun := by
  rw [hostOp] at h
  split at h <;> cases h
  rfl

/-- After a load that fits `load` is no longer admitted (spec R129). -/
theorem hostOp_load_begun {b b1 : Boot} {bytes : List Byte} {s t : State} (hfit : bytes.length ≤ 3584)
    (h : hostOp b (.load bytes) s = .next (b1, t)) : b1 = .begun := by
  rcases load_cases bytes s with ⟨_, hload⟩ | ⟨hlong, _⟩
  · cases b with
    | fresh =>
      rw [hostOp, hload] at h
      cases h
      rfl
    | begun => cases h
  · omega

/-- Once `load` is not admitted no operation admits it again. -/
theorem hostOp_keeps_begun {op : HostOp} {b1 : Boot} {s t : State} (h : hostOp .begun op s = .next (b1, t)) :
    b1 = .begun := by
  cases op with
  | load bytes => cases h
  | step => exact hostOp_step_begun h
  | tick => cases h; rfl
  | setKeys mask => cases h; rfl

theorem hostRun_keeps_begun {ops : List HostOp} {b1 : Boot} {s t : State}
    (h : hostRun .begun ops s = .next (b1, t)) : b1 = .begun := by
  induction ops generalizing s with
  | nil => cases h; rfl
  | cons op ops ih =>
    obtain ⟨b2, s2, hop, hrun⟩ := hostRun_cons h
    cases hostOp_keeps_begun hop
    exact ih hrun

/-- A schedule that loads where `load` is not admitted is never completed (spec R51). -/
theorem hostRun_begun_load_ne_next (between after : List HostOp) (bytes : List Byte) (s : State)
    (r : Boot × State) : hostRun .begun (between ++ .load bytes :: after) s ≠ .next r := by
  intro h
  obtain ⟨b1, s1, hbetween, hrest⟩ := hostRun_append h
  cases hostRun_keeps_begun hbetween
  obtain ⟨_, _, hload, _⟩ := hostRun_cons hrest
  cases hload

/-- A schedule is never completed that loads some time after an operation which ends the admission of `load`. -/
theorem hostRun_load_after_ne_next {op : HostOp} (hop : ∀ b b1 s t, hostOp b op s = .next (b1, t) → b1 = .begun)
    (before between after : List HostOp) (bytes : List Byte) (b : Boot) (s : State) (r : Boot × State) :
    hostRun b (before ++ op :: between ++ .load bytes :: after) s ≠ .next r := by
  intro h
  rw [List.append_assoc] at h
  obtain ⟨b1, s1, _, hrest⟩ := hostRun_append h
  obtain ⟨b2, s2, hfirst, hrun⟩ := hostRun_cons hrest
  cases hop _ _ _ _ hfirst
  exact hostRun_begun_load_ne_next between after bytes s2 r hrun

/-- Settles O50: a step and a load that fits each end the admission of `load`. -/
theorem loadOnlyBeforeFirstStep : Obligations.LoadOnlyBeforeFirstStep := fun before between after bytes b s r =>
  ⟨hostRun_load_after_ne_next (fun _ _ _ _ => hostOp_step_begun) before between after bytes b s r,
    fun _ hfit =>
      hostRun_load_after_ne_next (fun _ _ _ _ => hostOp_load_begun hfit) before between after bytes b s r⟩

end Sys2Proof.Machine

/-! PROOFS. The encoding (spec 30_encoding): the fields of a word, what a step does with the word it fetches, which
words are illegal and how many. -/

namespace Sys2Proof.Machine

open Sys2Proof

/-! ## The fields of a word -/

section Fields

variable (w : Word)

theorem fieldsOf_opcode_toNat : (fieldsOf w).opcode.toNat = w.toNat / 4096 := by
  simp only [fieldsOf, BitVec.extractLsb'_toNat, Nat.shiftRight_eq_div_pow]
  omega

theorem fieldsOf_x_val : (fieldsOf w).x.val = w.toNat / 256 % 16 := by
  simp [fieldsOf, Nat.shiftRight_eq_div_pow]

theorem fieldsOf_y_val : (fieldsOf w).y.val = w.toNat / 16 % 16 := by
  simp [fieldsOf, Nat.shiftRight_eq_div_pow]

theorem fieldsOf_n_toNat : (fieldsOf w).n.toNat = w.toNat % 16 := by
  simp [fieldsOf]

theorem fieldsOf_nn_toNat : (fieldsOf w).nn.toNat = w.toNat % 256 := by
  simp [fieldsOf]

theorem fieldsOf_nnn_toNat : (fieldsOf w).nnn.toNat = w.toNat % 4096 := by
  simp [fieldsOf]

theorem slices_join (start len len1 : Nat) :
    w.extractLsb' (start + len) len1 ++ w.extractLsb' start len = w.extractLsb' start (len1 + len) :=
  BitVec.extractLsb'_append_extractLsb'_eq_extractLsb' rfl

/-- The four nibbles make the word up again (spec R54). -/
theorem formatXYN_fieldsOf : formatXYN (fieldsOf w).opcode (fieldsOf w).x (fieldsOf w).y (fieldsOf w).n = w :=
  calc formatXYN (fieldsOf w).opcode (fieldsOf w).x (fieldsOf w).y (fieldsOf w).n
    _ = w.extractLsb' 12 4 ++ (w.extractLsb' 8 4 ++ (w.extractLsb' 4 4 ++ w.extractLsb' 0 4)) := rfl
    _ = w.extractLsb' 12 4 ++ (w.extractLsb' 8 4 ++ w.extractLsb' 0 8) := by rw [slices_join w 0 4 4]
    _ = w.extractLsb' 12 4 ++ w.extractLsb' 0 12 := by rw [slices_join w 0 8 4]
    _ = w := (slices_join w 0 12 4).trans BitVec.extractLsb'_eq_self

end Fields

/-- Settles O2: one lemma per field, and the nibbles joined again. -/
theorem fieldsAreSlicesAndReassemble : Obligations.FieldsAreSlicesAndReassemble := fun w =>
  ⟨fieldsOf_opcode_toNat w, fieldsOf_x_val w, fieldsOf_y_val w, fieldsOf_n_toNat w, fieldsOf_nn_toNat w,
    fieldsOf_nnn_toNat w, formatXYN_fieldsOf w⟩

/-! ## What a step does with the word it fetches -/

section Fetch

variable {s : State} {hi lo : Byte} {e : FatalError}

/-- The first byte read is the high one (spec R40, R53). -/
theorem fetch_of_reads (hhi : memRead s s.pc.toNat = .ok hi) (hlo : memRead s (s.pc.toNat + 1) = .ok lo) :
    fetch s = .ok (hi ++ lo) := by
  simp only [fetch, hhi, hlo, wordOfBytes]

theorem fetch_of_first_read_error (h : memRead s s.pc.toNat = .error e) : fetch s = .error e := by
  simp only [fetch, h]

theorem fetch_of_second_read_error (hhi : memRead s s.pc.toNat = .ok hi)
    (h : memRead s (s.pc.toNat + 1) = .error e) : fetch s = .error e := by
  simp only [fetch, hhi, h]

end Fetch

/-- A fetched word that does not decode raises IllegalInstruction in the state with pc advanced (spec R55, R62). -/
theorem step_of_decode_error {s : State} {w : Word} {e : DecodeError} (hs : s.status = .running)
    (hf : fetch s = .ok w) (hd : decodeWord w = .error e) :
    step s = .next (s.advance.setStatus (.faulted (.illegalInstruction s.pc w))) := by
  simp only [step_running s hs, hf, orRaise_ok, execWord, hd, raiseIllegal, raise_next, fetchAddr_advance]

/-- Settles O6: the two reads decide the fetch, and the decoder what the step does with the word. -/
theorem stepRunsTheDecodedInstruction : Obligations.StepRunsTheDecodedInstruction := fun _ _ _ hs =>
  ⟨fun hhi hlo => ⟨fun _ => step_of_decode hs (fetch_of_reads hhi hlo),
      fun _ => step_of_decode_error hs (fetch_of_reads hhi hlo)⟩,
    fun _ h => step_of_fetch_error hs (fetch_of_first_read_error h),
    fun _ hhi h => step_of_fetch_error hs (fetch_of_second_read_error hhi h)⟩

/-! ## Which words are illegal -/

theorem decodeFamily0_error_iff (w : Word) :
    (∃ e, decodeFamily0 w = .error e) ↔ w.toNat ≠ 0x00E0 ∧ w.toNat ≠ 0x00EE := by
  simp only [decodeFamily0, BitVec.toNat_eq]
  split_ifs <;> simp_all

theorem decodeFamily8_error_iff (f : Fields) :
    (∃ e, decodeFamily8 f = .error e) ↔ [0x8, 0x9, 0xA, 0xB, 0xC, 0xD, 0xF].contains f.n.toNat = true := by
  unfold decodeFamily8
  split
  case h_10 =>
    have hlt := f.n.isLt
    simp [BitVec.toNat_eq] at *
    omega
  all_goals simp [*]

theorem decodeFamilyE_error_iff (f : Fields) :
    (∃ e, decodeFamilyE f = .error e) ↔ f.nn.toNat ≠ 0x9E ∧ f.nn.toNat ≠ 0xA1 := by
  simp only [decodeFamilyE, BitVec.toNat_eq]
  split_ifs <;> simp_all

theorem decodeFamilyF_error_iff (f : Fields) :
    (∃ e, decodeFamilyF f = .error e) ↔ f.nn.toNat ≠ 0x07 ∧ f.nn.toNat ≠ 0x15 ∧ f.nn.toNat ≠ 0x18 := by
  simp only [decodeFamilyF, BitVec.toNat_eq]
  split_ifs <;> simp_all

/-- Families 5 and 9, which have one instruction each. -/
theorem okIf_error_iff (p : Prop) [Decidable p] (i : Instr) (illegal : DecodeError) :
    (∃ e, (if p then .ok i else .error illegal : Except DecodeError Instr) = .error e) ↔ ¬p := by
  split_ifs with h <;> simp [h]

/-- The decoder fails on the words of the table alone: opcode by opcode, each family's failures are its row. -/
theorem decodeWord_error_iff (w : Word) : (∃ e, decodeWord w = .error e) ↔ illegalPattern w.toNat = true := by
  have hop := (fieldsOf_opcode_toNat w).symm
  unfold decodeWord
  dsimp only
  split
  case h_1 h => simp [illegalPattern, hop, h, decodeFamily0_error_iff]
  case h_6 h | h_10 h => simp [illegalPattern, hop, h, okIf_error_iff, BitVec.toNat_eq, fieldsOf_n_toNat]
  case h_9 h => simp [illegalPattern, hop, h, decodeFamily8_error_iff, fieldsOf_n_toNat]
  case h_15 h => simp [illegalPattern, hop, h, decodeFamilyE_error_iff, fieldsOf_nn_toNat]
  case h_16 =>
    have h : (fieldsOf w).opcode = 0xF#4 := by
      clear hop
      have hlt := (fieldsOf w).opcode.isLt
      simp only [BitVec.toNat_eq, BitVec.toNat_ofNat, imp_false] at *
      omega
    simp [illegalPattern, hop, h, decodeFamilyF_error_iff, fieldsOf_nn_toNat, and_assoc]
  -- the opcodes of which every word is an instruction
  all_goals
    rename_i h
    simp [illegalPattern, hop, h]

/-! ## How many words are illegal -/

/-- The count column of the table of spec R62, by opcode. -/
def illegalCount : Nat → Nat
  | 0x0 => 4094
  | 0x5 => 3840
  | 0x8 => 1792
  | 0x9 => 3840
  | 0xE => 4064
  | 0xF => 4048
  | _ => 0

/-- A count over consecutive blocks of one length. -/
theorem countP_range_mul (p : Nat → Bool) (b a : Nat) :
    (List.range (b * a)).countP p = ∑ q ∈ Finset.range a, (List.range b).countP fun r => p (b * q + r) := by
  induction a with
  | zero => rfl
  | succ a ih =>
    rw [Nat.mul_succ, List.range_add, List.countP_append, ih, Finset.sum_range_succ, List.countP_map]
    rfl

/-- Opcode 0: the two legal words lie in the first block of 256 words. -/
theorem countP_illegalPattern_opcode0 : (List.range 4096).countP illegalPattern = illegalCount 0 := by
  have hblock : ∀ k ∈ Finset.range 16, (List.range 256).countP (fun l => illegalPattern (256 * k + l)) =
      if k = 0 then 254 else 256 := by
    intro k hk
    rw [Finset.mem_range] at hk
    split_ifs with h0
    · rw [h0]
      decide +kernel
    · rw [List.countP_eq_length.mpr, List.length_range]
      intro l hl
      rw [List.mem_range] at hl
      have hop : (256 * k + l) / 4096 = 0 := by omega
      have hne : 256 * k + l ≠ 0x00E0 ∧ 256 * k + l ≠ 0x00EE := by omega
      simp [illegalPattern, hop, hne]
  calc (List.range 4096).countP illegalPattern
    _ = ∑ k ∈ Finset.range 16, (List.range 256).countP fun l => illegalPattern (256 * k + l) :=
      countP_range_mul illegalPattern 256 16
    _ = ∑ k ∈ Finset.range 16, if k = 0 then 254 else 256 := Finset.sum_congr rfl hblock
    _ = illegalCount 0 := rfl

/-- Under any other opcode the table looks at the low byte alone. -/
theorem illegalPattern_low_byte {o k l : Nat} (h0 : 0 < o) (hk : k < 16) (hl : l < 256) :
    illegalPattern (4096 * o + (256 * k + l)) = illegalPattern (4096 * o + l) := by
  have hne : (o == 0) = false := beq_false_of_ne (by omega)
  simp only [illegalPattern, show (4096 * o + (256 * k + l)) / 4096 = o by omega,
    show (4096 * o + l) / 4096 = o by omega, show (4096 * o + (256 * k + l)) % 16 = (4096 * o + l) % 16 by omega,
    show (4096 * o + (256 * k + l)) % 256 = (4096 * o + l) % 256 by omega, hne, Bool.false_and]

/-- The low bytes that make a word illegal, for each opcode but 0. -/
theorem sixteen_mul_countP_low_byte : ∀ o < 16, 0 < o →
    16 * (List.range 256).countP (fun l => illegalPattern (4096 * o + l)) = illegalCount o := by
  decide +kernel

/-- Every other opcode: sixteen times its illegal low bytes. -/
theorem countP_illegalPattern_opcode {o : Nat} (h0 : 0 < o) (ho : o < 16) :
    (List.range 4096).countP (fun r => illegalPattern (4096 * o + r)) = illegalCount o := by
  have hblock : ∀ k ∈ Finset.range 16,
      (List.range 256).countP (fun l => illegalPattern (4096 * o + (256 * k + l))) =
        (List.range 256).countP fun l => illegalPattern (4096 * o + l) := fun k hk =>
    List.countP_congr fun l hl => by
      rw [illegalPattern_low_byte h0 (Finset.mem_range.mp hk) (List.mem_range.mp hl)]
  calc (List.range 4096).countP (fun r => illegalPattern (4096 * o + r))
    _ = ∑ k ∈ Finset.range 16, (List.range 256).countP fun l => illegalPattern (4096 * o + (256 * k + l)) :=
      countP_range_mul _ 256 16
    _ = 16 * (List.range 256).countP fun l => illegalPattern (4096 * o + l) := by
      rw [Finset.sum_congr rfl hblock, Finset.sum_const, Finset.card_range, smul_eq_mul]
    _ = illegalCount o := sixteen_mul_countP_low_byte o ho h0

/-- The total of the table of spec R62. -/
theorem countP_illegalPattern : (List.range 65536).countP illegalPattern = 21678 := by
  have hopcode : ∀ o ∈ Finset.range 16,
      (List.range 4096).countP (fun r => illegalPattern (4096 * o + r)) = illegalCount o := by
    intro o ho
    rcases Nat.eq_zero_or_pos o with rfl | h0
    · simpa only [Nat.mul_zero, Nat.zero_add] using countP_illegalPattern_opcode0
    · exact countP_illegalPattern_opcode h0 (Finset.mem_range.mp ho)
  calc (List.range 65536).countP illegalPattern
    _ = ∑ o ∈ Finset.range 16, (List.range 4096).countP fun r => illegalPattern (4096 * o + r) :=
      countP_range_mul illegalPattern 4096 16
    _ = ∑ o ∈ Finset.range 16, illegalCount o := Finset.sum_congr rfl hopcode
    _ = 21678 := rfl

/-- Settles O5: the decoder family by family, the count opcode by opcode, and the step on a word that fails. -/
theorem illegalWordsAreThoseOfTheTable : Obligations.IllegalWordsAreThoseOfTheTable := by
  refine ⟨decodeWord_error_iff, countP_illegalPattern, fun s w hs hf hillegal => ?_⟩
  obtain ⟨e, hd⟩ := (decodeWord_error_iff w).mpr hillegal
  exact step_of_decode_error hs hf hd

end Sys2Proof.Machine

/-! PROOFS. Arithmetic, logic, register and index instructions (spec 40_arithmetic_logic): how register writes
compose in a frame (`KeepsAllBut`), what a result and its flag read as, and each instruction from these. -/

namespace Sys2Proof.KeepsAllBut

open Sys2Proof.Machine

/-! ## Frames of register writes -/

variable {l m : List Reg} {s t u : State}

theorem mono (h : KeepsAllBut l s t) (hlm : l ⊆ m) : KeepsAllBut m s t :=
  ⟨fun r hr => h.1 r fun hrl => hr (hlm hrl), h.2⟩

theorem trans (hst : KeepsAllBut l s t) (htu : KeepsAllBut l t u) : KeepsAllBut l s u :=
  ⟨fun r hr => (htu.1 r hr).trans (hst.1 r hr), by rw [htu.2, hst.2]⟩

theorem refl (l : List Reg) (s : State) : KeepsAllBut l s s := ⟨fun _ _ => rfl, rfl⟩

theorem setV (x : Reg) (b : Byte) (s : State) : KeepsAllBut [x] s (s.setV x b) :=
  ⟨fun _ hr => State.setV_V_other s b (List.ne_of_not_mem_cons hr), rfl⟩

theorem writeThenFlag (x : Reg) (result flag : Byte) (s : State) :
    KeepsAllBut [x, VF] s (Machine.writeThenFlag x result flag s) :=
  ((setV x result s).mono (by simp)).trans ((setV VF flag _).mono (by simp))

/-- The optional copy of a shift writes V[x] or nothing (spec R76, R77). -/
theorem copyForShift (x y : Reg) (s : State) : KeepsAllBut [x] s (Machine.copyForShift x y s) := by
  unfold Machine.copyForShift
  split
  · exact setV x _ s
  · exact refl [x] s

/-- A shift writes V[x], in its optional copy too, and V[0xF]. -/
theorem shift (x y : Reg) (result flag : Byte) (s : State) :
    KeepsAllBut [x, VF] s (Machine.writeThenFlag x result flag (Machine.copyForShift x y s)) :=
  ((copyForShift x y s).mono (by simp)).trans (writeThenFlag x result flag _)

end Sys2Proof.KeepsAllBut

namespace Sys2Proof.Machine

open Sys2Proof

/-! ## Results and flags read back -/

/-- The result of 8XY4 to 8XY7 and 8XYE is read back from every destination but V[0xF] (spec R16). -/
theorem writeThenFlag_V_result {x : Reg} (hx : x ≠ VF) (result flag : Byte) (s : State) :
    (writeThenFlag x result flag s).V x = result := by
  rw [writeThenFlag_V, if_neg hx, if_pos rfl]

/-- The flag is read back from V[0xF], the destination V[0xF] included (spec R16). -/
theorem writeThenFlag_V_flag (x : Reg) (result flag : Byte) (s : State) :
    (writeThenFlag x result flag s).V VF = flag := by
  rw [writeThenFlag_V, if_pos rfl]

theorem carryFlag_eq (a b : Byte) : carryFlag a b = if 255 < a.toNat + b.toNat then 1 else 0 :=
  flagByte_decide _

theorem notBorrowFlag_eq (a b : Byte) : notBorrowFlag a b = if b.toNat ≤ a.toNat then 1 else 0 :=
  flagByte_decide _

/-- After the optional copy V[x] holds the register the quirk selects (spec R76, R77). -/
theorem copyForShift_V_dest (x y : Reg) (s : State) :
    (copyForShift x y s).V x = if s.quirks.useYInShift then s.V y else s.V x := by
  simp [copyForShift_V]

/-! ## Checked addition and subtraction -/

/-- Settles O14: the flag is written after the sum, both from the old operands. -/
theorem checkedAddSumAndCarry : Obligations.CheckedAddSumAndCarry := fun s x y => by
  refine ⟨_, rfl, fun hx => ?_, ?_, .writeThenFlag x _ _ s⟩
  · rw [writeThenFlag_V_result hx, sumByte_toNat]
  · rw [writeThenFlag_V_flag, carryFlag_eq]

/-- A difference and its not-borrow, written to V[x] and V[0xF] (spec R74, R75). -/
theorem writeThenFlag_diff (x : Reg) (a b : Byte) (s : State) :
    (x ≠ VF → (((writeThenFlag x (diffByte a b) (notBorrowFlag a b) s).V x).toNat : Int) =
      ((a.toNat : Int) - b.toNat) % 256) ∧
    (writeThenFlag x (diffByte a b) (notBorrowFlag a b) s).V VF = (if b.toNat ≤ a.toNat then 1 else 0) ∧
    KeepsAllBut [x, VF] s (writeThenFlag x (diffByte a b) (notBorrowFlag a b) s) := by
  refine ⟨fun hx => ?_, ?_, .writeThenFlag x _ _ s⟩
  · rw [writeThenFlag_V_result hx, diffByte_toNat]
  · rw [writeThenFlag_V_flag, notBorrowFlag_eq]

/-- Settles O15: the minuend is V[x]. -/
theorem checkedSubDifferenceAndNotBorrow : Obligations.CheckedSubDifferenceAndNotBorrow := fun s x y =>
  ⟨_, rfl, writeThenFlag_diff x (s.V x) (s.V y) s⟩

/-- Settles O16: the minuend is V[y]. -/
theorem reverseSubDifferenceAndNotBorrow : Obligations.ReverseSubDifferenceAndNotBorrow := fun s x y =>
  ⟨_, rfl, writeThenFlag_diff x (s.V y) (s.V x) s⟩

/-! ## Shifts -/

/-- Settles O17: after the optional copy both the result and the flag come from V[x]. -/
theorem shiftRightResultAndFlag : Obligations.ShiftRightResultAndFlag := fun s x y => by
  refine ⟨_, rfl, fun hx => ?_, ?_, .shift x y _ _ s⟩
  · rw [writeThenFlag_V_result hx, copyForShift_V_dest, BitVec.toNat_ushiftRight, Nat.shiftRight_one]
  · rw [writeThenFlag_V_flag, copyForShift_V_dest, shiftedOutRight_toNat]

/-- Settles O18: as for the right shift, with bit 7 shifted out. -/
theorem shiftLeftResultAndFlag : Obligations.ShiftLeftResultAndFlag := fun s x y => by
  refine ⟨_, rfl, fun hx => ?_, ?_, .shift x y _ _ s⟩
  · rw [writeThenFlag_V_result hx, copyForShift_V_dest, BitVec.toNat_shiftLeft, Nat.shiftLeft_eq, Nat.pow_one]
  · rw [writeThenFlag_V_flag, copyForShift_V_dest, shiftedOutLeft_toNat]

/-! ## Instructions that write one register and no flag -/

/-- Settles O11: each is one register write. -/
theorem setAndCopyRegister : Obligations.SetAndCopyRegister := fun s x _ _ =>
  ⟨⟨_, rfl, State.setV_V_same s x _, .setV x _ s⟩, ⟨_, rfl, State.setV_V_same s x _, .setV x _ s⟩⟩

/-- Settles O12: one register write, of a sum modulo 256. -/
theorem addImmediateWrapsWithoutFlag : Obligations.AddImmediateWrapsWithoutFlag := fun s x nn => by
  refine ⟨_, rfl, ?_, .setV x _ s⟩
  rw [State.setV_V_same, sumByte_toNat]

/-- Settles O13: one register write each, of a bitwise combination. -/
theorem logicIsBitwiseWithoutFlag : Obligations.LogicIsBitwiseWithoutFlag := fun s x y => by
  refine ⟨⟨_, rfl, fun k _ => ?or, .setV x _ s⟩, ⟨_, rfl, fun k _ => ?and, .setV x _ s⟩,
    ⟨_, rfl, fun k _ => ?xor, .setV x _ s⟩⟩
  case or => rw [State.setV_V_same, BitVec.getLsbD_or]
  case and => rw [State.setV_V_same, BitVec.getLsbD_and]
  case xor => rw [State.setV_V_same, BitVec.getLsbD_xor]

/-- Settles O20: one register write and one step of the random input, which the frame puts back. -/
theorem randomByteMasked : Obligations.RandomByteMasked := fun s x nn => by
  refine ⟨_, rfl, fun k _ => ?_, rfl, .setV x (rand8 s &&& nn) s⟩
  rw [State.nextRand_V, State.setV_V_same, BitVec.getLsbD_and, rand8]

/-! ## The index register -/

/-- Settles O19: a 12-bit address keeps its value in I. -/
theorem setIndexRegister : Obligations.SetIndexRegister := fun _ nnn => ⟨_, rfl, zext12_toNat nnn, rfl⟩

end Sys2Proof.Machine

/-! PROOFS. Control flow (spec 41_control_flow): the call stack instructions by the state of the stack, the target of
BNNN as an exact sum, the skips from one lemma about `skipIf`, and each obligation from these. -/

namespace Sys2Proof.Machine

open Sys2Proof

/-! ## Calls and returns -/

theorem execCall_of_room (nnn : Addr12) {s : State} (h : s.stackFull = false) :
    execCall nnn s = .next ((s.setStack (s.pc :: s.stack)).setPc (zext12 nnn)) := by
  simp [execCall, push, h]

theorem execCall_of_full (nnn : Addr12) {s : State} (h : s.stackFull = true) :
    execCall nnn s = .next (s.setStatus (.faulted (.stackOverflow s.fetchAddr))) := by
  simp [execCall, push, h]

theorem execRet_of_cons {s : State} {a : Word} {rest : List Word} (h : s.stack = a :: rest) :
    execRet s = .next ((s.setStack rest).setPc a) := by
  simp [execRet, pop, h]

theorem execRet_of_empty {s : State} (h : s.stack = []) :
    execRet s = .next (s.setStatus (.faulted (.stackUnderflow s.fetchAddr))) := by
  simp [execRet, pop, h]

/-- A depth at the capacity fills the stack (spec R27). -/
theorem stackFull_of_depth_eq_capacity {s : State} (h : s.stackCapacity = some s.stack.length) :
    s.stackFull = true := by
  simp [State.stackFull, h]

/-- Settles O22: the two clauses are the two cases of `State.stackFull`. -/
theorem callPushesOrOverflows : Obligations.CallPushesOrOverflows := fun s nnn =>
  ⟨fun hroom => ⟨_, execCall_of_room nnn ((stackFull_eq_false s).mpr hroom), zext12_toNat nnn, rfl, rfl⟩,
    fun hfull => execCall_of_full nnn (stackFull_of_depth_eq_capacity hfull)⟩

/-- Settles O23: the two clauses are the two forms of the stack. -/
theorem returnPopsOrUnderflows : Obligations.ReturnPopsOrUnderflows := fun _ =>
  ⟨fun _ _ => execRet_of_cons, execRet_of_empty⟩

/-- Settles O24: a call that left the engine running had room, so the return finds its pc on the top. -/
theorem returnUndoesCall : Obligations.ReturnUndoesCall := by
  intro s t nnn a _ hcall hrunning
  change execCall nnn s = .next t at hcall
  cases hfull : s.stackFull with
  | true =>
    rw [execCall_of_full nnn hfull] at hcall
    cases hcall
    cases hrunning
  | false =>
    rw [execCall_of_room nnn hfull] at hcall
    cases hcall
    exact execRet_of_cons rfl

/-! ## Jumps -/

theorem offsetField_val (nnn : Addr12) : (offsetField nnn).val = nnn.toNat / 256 := by
  simp only [offsetField, BitVec.val_toFin, BitVec.extractLsb'_toNat, Nat.shiftRight_eq_div_pow]
  omega

/-- The target of BNNN is an exact sum: it stays below 2^16 (spec R89). -/
theorem jumpTarget_toNat (nnn : Addr12) (s : State) :
    (jumpTarget nnn s).toNat = nnn.toNat + (s.V (jumpOffsetReg nnn s)).toNat := by
  rw [jumpTarget, BitVec.toNat_add, zext12_toNat, BitVec.toNat_setWidth]
  omega

/-- Settles O21: a 12-bit address keeps its value in pc. -/
theorem jumpSetsPc : Obligations.JumpSetsPc := fun _ nnn => ⟨_, rfl, zext12_toNat nnn, rfl⟩

/-- Settles O26: the exact sum, with the register of either setting of the quirk. -/
theorem jumpWithOffset : Obligations.JumpWithOffset := fun s nnn => by
  refine ⟨s.setPc (jumpTarget nnn s), rfl, rfl, fun hoff => ?_, fun hon x hx => ?_⟩
  · have hreg : jumpOffsetReg nnn s = 0 := by simp [jumpOffsetReg, hoff]
    rw [State.setPc_pc, jumpTarget_toNat, hreg]
  · have hfield : offsetField nnn = x := Fin.ext ((offsetField_val nnn).trans hx.symm)
    have hreg : jumpOffsetReg nnn s = x := by simp [jumpOffsetReg, hon, hfield]
    rw [State.setPc_pc, jumpTarget_toNat, hreg]

/-! ## Skips -/

/-- A skip moves pc on by 2 exactly when its condition holds, and changes nothing else (spec R88). -/
theorem skipIf_decide_next (p : Prop) [Decidable p] (s : State) :
    ∃ t, skipIf (decide p) s = .next t ∧ t.pc = (if p then s.pc + 2 else s.pc) ∧ KeepsAllButPc s t := by
  rcases skipIf_cases (decide p) s with ⟨hp, hskip⟩ | ⟨hp, hskip⟩
  · exact ⟨_, hskip, (if_pos (of_decide_eq_true hp)).symm, rfl⟩
  · exact ⟨_, hskip, (if_neg (of_decide_eq_false hp)).symm, rfl⟩

/-- Settles O25: bytes are equal exactly when their unsigned values are, and each skip tests that or its negation. -/
theorem comparingSkips : Obligations.ComparingSkips := fun s x y nn => by
  have skipEq (b : Byte) := skipIf_decide_next (s.V x = b) s
  have skipNe (b : Byte) := skipIf_decide_next (s.V x ≠ b) s
  simp only [ne_eq, ite_not] at skipNe
  simp only [BitVec.toNat_inj]
  exact ⟨skipEq nn, skipNe nn, skipEq (s.V y), skipNe (s.V y)⟩

end Sys2Proof.Machine

/-! PROOFS. Display (spec 42_display): what it means that the set bits of a pattern are drawn (`Paints`), that patterns
without a common cell drawn one after the other are one pattern drawn, and the drawing loop from its single cells. -/

namespace Sys2Proof.Machine

open Sys2Proof

/-! ## 00E0 -/

/-- Settles O27: every bit of the zero display is clear. -/
theorem clearScreen : Obligations.ClearScreen := fun s => ⟨s.setDisp 0, rfl, fun _ _ => BitVec.getLsbD_zero, rfl⟩

/-! ## Drawing a pattern of bits -/

/-- Some set bit of the pattern `bits` falls on a display cell that holds `lit`. -/
def SetBitOn (lit : Bool) (bits : Nat → Nat → Bool) (s : State) : Prop :=
  ∃ px py, px < 64 ∧ py < 32 ∧ bits px py = true ∧ s.cell (px + 64 * py) = lit

theorem drawsOn_iff_setBitOn {lit : Bool} {s : State} {x y : Reg} {n : Nat} :
    DrawsOn lit s x y n ↔ SetBitOn lit (drawnBit s x y n) s := Iff.rfl

/-- From `s` to `t` the bits of `bits` are drawn: each cell XOR its bit, and V[0xF] <- 1 if a set bit falls on a lit
cell (spec R92, R93). -/
structure Paints (bits : Nat → Nat → Bool) (s t : State) : Prop where
  cell : ∀ px < 64, ∀ py < 32, t.cell (px + 64 * py) = (s.cell (px + 64 * py) ^^ bits px py)
  flag_hit : SetBitOn true bits s → t.V VF = 1
  flag_miss : ¬ SetBitOn true bits s → t.V VF = s.V VF

namespace Paints

variable {a b c : Nat → Nat → Bool} {s t u : State}

/-- A pattern with no set bit on the display draws nothing. -/
theorem of_clear (h : ∀ px < 64, ∀ py < 32, a px py = false) : Paints a s s where
  cell px hx py hy := by rw [h px hx py hy, Bool.xor_false]
  flag_hit := by
    rintro ⟨px, py, hx, hy, hbit, _⟩
    rw [h px hx py hy] at hbit
    cases hbit
  flag_miss _ := rfl

/-- The union of two patterns hits a lit cell where the first does, or where the second does once the first, which has
no cell in common with it, is drawn. -/
theorem setBitOn_or_iff (hst : Paints a s t) (hdisj : ∀ px py, b px py = true → a px py = false)
    (hc : ∀ px < 64, ∀ py < 32, c px py = (a px py || b px py)) :
    SetBitOn true c s ↔ SetBitOn true a s ∨ SetBitOn true b t := by
  have hsame : ∀ px < 64, ∀ py < 32, b px py = true → t.cell (px + 64 * py) = s.cell (px + 64 * py) :=
    fun px hx py hy hb => by rw [hst.cell px hx py hy, hdisj px py hb, Bool.xor_false]
  constructor
  · rintro ⟨px, py, hx, hy, hbit, hlit⟩
    rw [hc px hx py hy, Bool.or_eq_true] at hbit
    rcases hbit with ha | hb
    · exact .inl ⟨px, py, hx, hy, ha, hlit⟩
    · exact .inr ⟨px, py, hx, hy, hb, (hsame px hx py hy hb).trans hlit⟩
  · rintro (⟨px, py, hx, hy, ha, hlit⟩ | ⟨px, py, hx, hy, hb, hlit⟩)
    · exact ⟨px, py, hx, hy, by rw [hc px hx py hy, ha, Bool.true_or], hlit⟩
    · exact ⟨px, py, hx, hy, by rw [hc px hx py hy, hb, Bool.or_true], (hsame px hx py hy hb).symm.trans hlit⟩

/-- Two patterns with no cell in common, drawn one after the other, are their union drawn. -/
theorem trans_or (hst : Paints a s t) (htu : Paints b t u) (hdisj : ∀ px py, b px py = true → a px py = false)
    (hc : ∀ px < 64, ∀ py < 32, c px py = (a px py || b px py)) : Paints c s u where
  cell px hx py hy := by
    have hxor : (a px py ^^ b px py) = (a px py || b px py) := by
      cases hb : b px py with
      | false => rw [Bool.xor_false, Bool.or_false]
      | true => rw [hdisj px py hb]; rfl
    rw [htu.cell px hx py hy, hst.cell px hx py hy, hc px hx py hy, Bool.xor_assoc, hxor]
  flag_hit hhit := by
    by_cases hb : SetBitOn true b t
    · exact htu.flag_hit hb
    · have ha := ((setBitOn_or_iff hst hdisj hc).mp hhit).resolve_right hb
      rw [htu.flag_miss hb, hst.flag_hit ha]
  flag_miss hmiss := by
    obtain ⟨ha, hb⟩ := not_or.mp (mt (setBitOn_or_iff hst hdisj hc).mpr hmiss)
    rw [htu.flag_miss hb, hst.flag_miss ha]

/-- A pattern whose one bit is that of cell (x, y), set, is drawn by toggling the cell. -/
theorem toggleCell {x y : Nat} (hx : x < 64) (hy : y < 32)
    (h : ∀ px py, a px py = true ↔ px = x ∧ py = y) : Paints a s (toggleCell x y s) where
  cell px hpx py hpy := by
    have hidx : (px + 64 * py = cellIndex x y ∧ cellIndex x y < 2048) ↔ a px py = true := by
      rw [h, cellIndex, Config.dispW]
      omega
    rw [toggleCell_cell, ite_cond_congr (propext hidx)]
    cases a px py <;> simp
  flag_hit := by
    rintro ⟨px, py, _, _, hbit, hlit⟩
    obtain ⟨rfl, rfl⟩ := (h px py).mp hbit
    rw [toggleCell_V, if_pos ⟨rfl, hlit⟩]
  flag_miss hmiss := by
    have hunlit : ¬ s.cell (cellIndex x y) = true := fun hlit =>
      hmiss ⟨x, y, hx, hy, (h x y).mpr ⟨rfl, rfl⟩, hlit⟩
    rw [toggleCell_V, if_neg fun hq => hunlit hq.2]

end Paints

/-! ## The drawing loop -/

section Sprite

variable (rows : Nat → Byte) (x0 y0 : Nat)

/-- The bits of a sprite with its corner at (x0, y0), in its columns c to c + w - 1 and rows r to r + h - 1. -/
def spriteBlock (c w r h px py : Nat) : Bool :=
  decide ((x0 + c ≤ px ∧ px < x0 + c + w) ∧ y0 + r ≤ py ∧ py < y0 + r + h) && spriteBit (rows (py - y0)) (px - x0)

variable {rows x0 y0} {c w r h px py : Nat}

theorem spriteBlock_eq_true_iff :
    spriteBlock rows x0 y0 c w r h px py = true ↔
      ((x0 + c ≤ px ∧ px < x0 + c + w) ∧ y0 + r ≤ py ∧ py < y0 + r + h) ∧
        spriteBit (rows (py - y0)) (px - x0) = true := by
  rw [spriteBlock, Bool.and_eq_true, decide_eq_true_iff]

theorem spriteBlock_eq_false (hout : ¬ ((x0 + c ≤ px ∧ px < x0 + c + w) ∧ y0 + r ≤ py ∧ py < y0 + r + h)) :
    spriteBlock rows x0 y0 c w r h px py = false :=
  Bool.eq_false_iff.mpr fun hbit => hout (spriteBlock_eq_true_iff.mp hbit).1

theorem spriteBlock_succ_columns :
    spriteBlock rows x0 y0 c (w + 1) r h px py =
      (spriteBlock rows x0 y0 c 1 r h px py || spriteBlock rows x0 y0 (c + 1) w r h px py) := by
  simp only [spriteBlock, ← Bool.and_or_distrib_right, ← Bool.decide_or]
  congr 2
  exact propext (by omega)

theorem spriteBlock_succ_rows :
    spriteBlock rows x0 y0 c w r (h + 1) px py =
      (spriteBlock rows x0 y0 c w r 1 px py || spriteBlock rows x0 y0 c w (r + 1) h px py) := by
  simp only [spriteBlock, ← Bool.and_or_distrib_right, ← Bool.decide_or]
  congr 2
  exact propext (by omega)

variable {s : State}

/-- One column of one row: its bit, set or not. -/
theorem paints_column (hx : x0 + c < 64) (hy : y0 + r < 32) :
    Paints (spriteBlock rows x0 y0 c 1 r 1) s
      (if spriteBit (rows r) c then toggleCell (x0 + c) (y0 + r) s else s) := by
  have hbit : ∀ px py, spriteBlock rows x0 y0 c 1 r 1 px py = true ↔
      (px = x0 + c ∧ py = y0 + r) ∧ spriteBit (rows r) c = true := by
    intro px py
    rw [spriteBlock_eq_true_iff]
    have hcell : ((x0 + c ≤ px ∧ px < x0 + c + 1) ∧ y0 + r ≤ py ∧ py < y0 + r + 1) ↔
        px = x0 + c ∧ py = y0 + r := by omega
    rw [hcell]
    refine and_congr_right ?_
    rintro ⟨rfl, rfl⟩
    rw [Nat.add_sub_cancel_left, Nat.add_sub_cancel_left]
  split_ifs with hset
  · exact .toggleCell hx hy fun px py => (hbit px py).trans (and_iff_left hset)
  · exact .of_clear fun px _ py _ => Bool.eq_false_iff.mpr fun h => hset ((hbit px py).mp h).2

/-- The columns of one row; those past the right edge have no cell of the display (spec R92). -/
theorem paints_drawColumns (hy : y0 + r < 32) :
    Paints (spriteBlock rows x0 y0 c w r 1) s (drawColumns (rows r) x0 (y0 + r) (List.range' c w) s) := by
  induction w generalizing c s with
  | zero => exact .of_clear fun px _ py _ => spriteBlock_eq_false (by omega)
  | succ w ih =>
    rw [List.range'_succ, drawColumns, Config.dispW]
    split
    · exact .of_clear fun px _ py _ => spriteBlock_eq_false (by omega)
    · refine .trans_or (paints_column (by omega) hy) ih (fun px py hbit => ?_)
        fun px _ py _ => spriteBlock_succ_columns
      have hin := (spriteBlock_eq_true_iff.mp hbit).1
      exact spriteBlock_eq_false (by omega)

/-- The rows of a sprite; those past the bottom edge have no cell of the display (spec R92). -/
theorem paints_drawRows (hrows : ∀ k, Memory.byte s.mem (spriteAddr s k) = rows k) :
    Paints (spriteBlock rows x0 y0 0 8 r h) s (drawRows x0 y0 (List.range' r h) s) := by
  induction h generalizing r s with
  | zero => exact .of_clear fun px _ py _ => spriteBlock_eq_false (by omega)
  | succ h ih =>
    rw [List.range'_succ, drawRows, Config.dispH]
    split
    · exact .of_clear fun px _ py _ => spriteBlock_eq_false (by omega)
    · rw [hrows, List.range_eq_range']
      refine .trans_or (paints_drawColumns (by omega)) (ih ?kept) (fun px py hbit => ?_)
        fun px _ py _ => spriteBlock_succ_rows
      case kept =>
        rw [drawColumns_frame]
        exact hrows
      have hin := (spriteBlock_eq_true_iff.mp hbit).1
      exact spriteBlock_eq_false (by omega)

end Sprite

/-! ## DXYN -/

theorem execDrw_of_rows_inside (x y : Reg) {s : State} {n : Nat} (hrows : ∀ r < n, s.i.toNat + r < 4096) :
    execDrw x y n s =
      .next (drawRows (startColumn (s.V x)) (startRow (s.V y)) (List.range n) (s.setV VF 0)) := by
  simp only [execDrw, (firstRowOutside_eq_none s n).mpr hrows]

/-- The sprite of DRW is the block of its eight columns and `n` rows. -/
theorem drawnBit_eq_spriteBlock (s : State) (x y : Reg) (n : Nat) :
    drawnBit s x y n =
      spriteBlock (fun k => Memory.byte s.mem (spriteAddr s k)) (startColumn (s.V x)) (startRow (s.V y)) 0 8 0 n := by
  funext px py
  simp only [drawnBit, spriteBlock, Bool.decide_and, Bool.and_assoc]
  rfl

/-- The drawing loop of DRW draws its sprite, V[0xF] having been reset (spec R92). -/
theorem paints_drawRows_drawnBit (s : State) (x y : Reg) (n : Nat) :
    Paints (drawnBit s x y n) (s.setV VF 0)
      (drawRows (startColumn (s.V x)) (startRow (s.V y)) (List.range n) (s.setV VF 0)) := by
  rw [drawnBit_eq_spriteBlock, List.range_eq_range']
  exact paints_drawRows fun _ => rfl

/-- Settles O29: the loop draws the sprite on the display of `s`, with V[0xF] = 0 before it. -/
theorem drawIsCellwiseXorWithCollision : Obligations.DrawIsCellwiseXorWithCollision := by
  intro s x y n hrows
  have hp := paints_drawRows_drawnBit s x y n
  refine ⟨_, execDrw_of_rows_inside x y hrows, hp.cell, hp.flag_hit, fun hmiss => ?flag, fun r hr => ?other, ?frame⟩
  case flag => rw [hp.flag_miss hmiss, State.setV_V_same]
  case other => rw [drawRows_V_other _ _ _ _ hr, State.setV_V_other s 0 hr]
  case frame => exact drawRows_frame _ _ _ _

/-! ## Drawing twice -/

theorem drawnBit_congr {s t : State} {x y : Reg} (hmem : t.mem = s.mem) (hi : t.i = s.i) (hx : t.V x = s.V x)
    (hy : t.V y = s.V y) (n : Nat) : drawnBit t x y n = drawnBit s x y n := by
  funext px py
  simp only [drawnBit, hmem, hi, hx, hy]

/-- Displays with the same 64 by 32 cells are equal (spec R29). -/
theorem disp_eq_of_cells {s t : State} (h : ∀ px < 64, ∀ py < 32, t.cell (px + 64 * py) = s.cell (px + 64 * py)) :
    t.disp = s.disp := by
  refine BitVec.eq_of_getLsbD_eq fun k hk => ?_
  have hcell := h (k % 64) (by omega) (k / 64) (by omega)
  rwa [Nat.mod_add_div] at hcell

/-- Where a sprite has been drawn, its set bits fall on lit cells exactly where they fell on unlit ones before. -/
theorem setBitOn_true_iff_of_xor {bits : Nat → Nat → Bool} {s t : State}
    (h : ∀ px < 64, ∀ py < 32, t.cell (px + 64 * py) = (s.cell (px + 64 * py) ^^ bits px py)) :
    SetBitOn true bits t ↔ SetBitOn false bits s := by
  have hflip : ∀ px < 64, ∀ py < 32, bits px py = true →
      (t.cell (px + 64 * py) = true ↔ s.cell (px + 64 * py) = false) := by
    intro px hx py hy hbit
    rw [h px hx py hy, hbit, Bool.xor_true, Bool.not_eq_true']
  refine exists_congr fun px => exists_congr fun py => ?_
  exact and_congr_right fun hx => and_congr_right fun hy => and_congr_right fun hbit => hflip px hx py hy hbit

/-- Settles O30: the second draw has the same sprite, and a bit XORed twice is gone. -/
theorem drawTwiceRestoresDisplay : Obligations.DrawTwiceRestoresDisplay := by
  intro s t u x y n hrows hst hx hy htu
  obtain ⟨t', hst', hcell, -, -, -, hframe⟩ := drawIsCellwiseXorWithCollision s x y n hrows
  obtain rfl : t' = t := Host.Outcome.next.inj (hst'.symm.trans hst)
  have hmem : t'.mem = s.mem := by rw [hframe]
  have hi : t'.i = s.i := by rw [hframe]
  obtain ⟨u', htu', hcell', hhit, hmiss, -, -⟩ := drawIsCellwiseXorWithCollision t' x y n (hi ▸ hrows)
  obtain rfl : u' = u := Host.Outcome.next.inj (htu'.symm.trans htu)
  have hbits := drawnBit_congr hmem hi hx hy n
  have hon : DrawsOn true t' x y n ↔ DrawsOn false s x y n := by
    rw [drawsOn_iff_setBitOn, drawsOn_iff_setBitOn, hbits]
    exact setBitOn_true_iff_of_xor hcell
  constructor
  · refine disp_eq_of_cells fun px hpx py hpy => ?_
    rw [hcell' px hpx py hpy, hcell px hpx py hpy, hbits, Bool.xor_assoc, Bool.xor_self, Bool.xor_false]
  · rw [← hon]
    refine ⟨fun hone => by_contra fun hno => ?_, hhit⟩
    rw [hmiss hno] at hone
    exact absurd hone (by decide)

end Sys2Proof.Machine

/-! PROOFS. Keypad and timers (spec 43_timers_keypad): the key skips from the lemma about `skipIf` with the test
`keyHeld` spelled out, and the timer transfers as single writes. -/

namespace Sys2Proof.Machine

open Sys2Proof

/-! ## Key skips -/

/-- `skipIf_decide_next` for a condition that is a Bool already (spec R88). -/
theorem skipIf_next (c : Bool) (s : State) :
    ∃ t, skipIf c s = .next t ∧ t.pc = (if c then s.pc + 2 else s.pc) ∧ KeepsAllButPc s t := by
  have h := skipIf_decide_next (c = true) s
  rwa [Bool.decide_eq_true] at h

/-- Settles O31: EX9E skips on `keyHeld`, which is false for every value from 16 on, and EXA1 on its negation. -/
theorem keySkips : Obligations.KeySkips := fun s x => by
  have skipHeld := skipIf_next (keyHeld s (s.V x)) s
  have skipNotHeld := skipIf_next (!keyHeld s (s.V x)) s
  simp only [Bool.not_eq_true', ← Bool.not_eq_true, ite_not] at skipNotHeld
  rw [← keyHeld_eq]
  exact ⟨skipHeld, skipNotHeld⟩

/-! ## Timer transfers -/

/-- Settles O32: FX07 is one register write, FX15 and FX18 are one timer write each. -/
theorem timerTransfers : Obligations.TimerTransfers := fun s x =>
  ⟨⟨_, rfl, State.setV_V_same s x s.dt, .setV x s.dt s⟩, ⟨_, rfl, rfl, rfl⟩, ⟨_, rfl, rfl, rfl⟩⟩

end Sys2Proof.Machine

/-! PROOFS. Exceptions and the host's operations (spec 60_exceptions): what one operation of a schedule can do, said
once (`hostOp_cases`), with the invariant and the sticky status that follow from it; the errors of one instruction;
and that a running step always answers. -/

namespace Sys2Proof.Machine

open Sys2Proof

/-! ## One operation of a schedule -/

/-- What an operation that completes can do, and whether `load` is admitted after it (spec R51, R113). -/
theorem hostOp_cases {b b1 : Boot} {op : HostOp} {s t : State} (h : hostOp b op s = .next (b1, t)) :
    (∃ bytes, op = .load bytes ∧ b = .fresh ∧ b1 = bootAfterLoad (load bytes s).1 ∧ t = (load bytes s).2) ∨
    (op = .step ∧ b1 = .begun ∧ step s = .next t) ∨
    (op = .tick ∧ b1 = b ∧ t = tickTimers s) ∨
    (∃ mask, op = .setKeys mask ∧ b1 = b ∧ t = setPressedKeys mask s) := by
  cases op with
  | load bytes =>
    cases b with
    | fresh => cases h; exact .inl ⟨bytes, rfl, rfl, rfl, rfl⟩
    | begun => cases h
  | step =>
    rw [hostOp] at h
    split at h <;> cases h
    exact .inr (.inl ⟨rfl, rfl, ‹_›⟩)
  | tick => cases h; exact .inr (.inr (.inl ⟨rfl, rfl, rfl⟩))
  | setKeys mask => cases h; exact .inr (.inr (.inr ⟨mask, rfl, rfl, rfl⟩))

/-! ## The invariant of a schedule -/

/-- A change outside the core keeps the invariant, which speaks of memory, pc and the stack alone. -/
theorem OutsideCore.engineInv {f : State → State} (hf : OutsideCore f) {s : State} (h : EngineInv s) :
    EngineInv (f s) := by
  obtain ⟨hmem, hpc, hstack, hdepth⟩ := h
  exact {
    memWf := by rwa [hf.mem]
    pcBound := by rwa [hf.pc]
    stackBound := by rwa [hf.stack]
    depthBound := by rwa [WithinCapacity, hf.stackCapacity, hf.stack] }

/-- A load keeps the invariant: it writes bytes into memory, or changes nothing (spec R117). -/
theorem engineInv_load (bytes : List Byte) {s : State} (h : EngineInv s) : EngineInv (load bytes s).2 := by
  rcases load_cases bytes s with ⟨_, hload⟩ | ⟨_, hload⟩ <;> simp only [hload]
  · obtain ⟨hmem, hpc, hstack, hdepth⟩ := h
    exact ⟨writeFrom_wf 0x200 bytes s.mem hmem, hpc, hstack, hdepth⟩
  · exact h

theorem engineInv_hostOp {b b1 : Boot} {op : HostOp} {s t : State} (hinv : EngineInv s)
    (h : hostOp b op s = .next (b1, t)) : EngineInv t := by
  rcases hostOp_cases h with ⟨bytes, _, _, _, rfl⟩ | ⟨_, _, hstep⟩ | ⟨_, _, rfl⟩ | ⟨mask, _, _, rfl⟩
  · exact engineInv_load bytes hinv
  · exact stepKeepsInvariant s t hinv hstep
  · exact tickTimers_outsideCore.engineInv hinv
  · exact (setPressedKeys_outsideCore mask).engineInv hinv

/-- What every operation keeps, every schedule keeps. -/
theorem hostRun_keeps {P : State → Prop}
    (hop : ∀ b b1 op s t, P s → hostOp b op s = .next (b1, t) → P t) {ops : List HostOp} {b b1 : Boot} {s t : State}
    (hs : P s) (h : hostRun b ops s = .next (b1, t)) : P t := by
  induction ops generalizing b s with
  | nil => cases h; exact hs
  | cons op ops ih =>
    obtain ⟨b2, s2, hfirst, hrest⟩ := hostRun_cons h
    exact ih (hop _ _ _ _ _ hs hfirst) hrest

/-- Settles O45: each operation keeps the invariant, so a schedule does by induction on its operations. -/
theorem scheduleKeepsInvariant : Obligations.ScheduleKeepsInvariant := fun _ _ _ _ _ hinv h =>
  hostRun_keeps (fun _ _ _ _ _ => engineInv_hostOp) hinv h

/-! ## The sticky status -/

/-- A load keeps the status, whether it succeeds or fails. -/
theorem load_status (bytes : List Byte) (s : State) : (load bytes s).2.status = s.status := by
  rcases load_cases bytes s with ⟨_, hload⟩ | ⟨_, hload⟩
  · rw [hload, State.setMem_status]
  · rw [hload]

/-- A load that fails leaves the engine as it was (spec R104). -/
theorem load_state_of_fault {bytes : List Byte} {s : State} {e : FatalError} (h : (load bytes s).1 = .fault e) :
    (load bytes s).2 = s := by
  rcases load_cases bytes s with ⟨_, hload⟩ | ⟨_, hload⟩
  · rw [hload] at h
    cases h
  · rw [hload]

/-- No operation of the host clears a recorded error: a step is not admitted, and the others keep the status. -/
theorem hostOp_keeps_faulted {b b1 : Boot} {op : HostOp} {s t : State} {e : FatalError}
    (hs : s.status = .faulted e) (h : hostOp b op s = .next (b1, t)) : t.status = .faulted e := by
  rcases hostOp_cases h with ⟨bytes, _, _, _, rfl⟩ | ⟨_, _, hstep⟩ | ⟨_, _, rfl⟩ | ⟨mask, _, _, rfl⟩
  · rw [load_status, hs]
  · rw [step_faulted s e hs] at hstep
    cases hstep
  · exact hs
  · exact hs

/-- Settles O8: the raise by definition, a faulted state by `step_faulted` and `hostOp_keeps_faulted`, and the
failed load by the cases of `load`. -/
theorem faultedStatusIsSticky : Obligations.FaultedStatusIsSticky :=
  ⟨raise_next, fun s e hs => ⟨step_faulted s e hs, fun _ _ _ _ => hostOp_keeps_faulted hs⟩,
    fun _ _ _ => load_state_of_fault⟩

/-! ## The random input -/

/-- The state with the random input at another position. -/
def State.withRandCount (k : Nat) (s : State) : State := { s with randCount := k }

theorem withRandCount_outsideCore (k : Nat) : OutsideCore (State.withRandCount k) := by
  constructor <;> intros <;> rfl

/-- Only CXNN reads or moves the random input (spec R121). -/
theorem blindTo_withRandCount (k : Nat) {i : Instr} (h : ∀ x nn, i ≠ .rnd x nn) :
    BlindTo (State.withRandCount k) i := by
  cases i with
  | rnd x nn => exact absurd rfl (h x nn)
  | shr | shl | jpV0 | skp | sknp | ldVxDt => exact fun _ => rfl
  | ldDtVx | ldStVx => exact fun _ _ => rfl
  | _ => trivial

/-- Settles O39: the random position is a field outside the core, which only CXNN sees. -/
theorem onlyRandomReadsTheRandomInput : Obligations.OnlyRandomReadsTheRandomInput := fun _ s k h =>
  (withRandCount_outsideCore k).exec_comm (blindTo_withRandCount k h) s

/-! ## The errors of an instruction -/

/-- Settles O40: of the effects an instruction can have three raise, and each is a change of the status alone. -/
theorem instructionFaultsArePrecise : Obligations.InstructionFaultsArePrecise := by
  intro i s t e hs hexec ht
  cases exec_effect hexec with
  | callOverflow nnn =>
    cases ht
    exact ⟨rfl, .inl ⟨nnn, rfl, rfl⟩⟩
  | retUnderflow =>
    cases ht
    exact ⟨rfl, .inr (.inl ⟨rfl, rfl⟩)⟩
  | drawOutside x y hrow =>
    cases ht
    obtain ⟨r, hr, rfl, hout⟩ := firstRowOutside_some _ _ _ hrow
    exact ⟨rfl, .inr (.inr ⟨x, y, _, r, rfl, hr, hout, rfl⟩)⟩
  | _ => cases hs.symm.trans ht

/-! ## A running step answers -/

/-- A check answers a next state when what follows it does: an error it reports is raised. -/
theorem orRaise_answers {s : State} {α : Type} (r : Except FatalError α) {k : α → Result}
    (hk : ∀ a, ∃ t, k a = .next t) : ∃ t, orRaise s r k = .next t := by
  cases r with
  | error e => exact ⟨_, orRaise_error s e k⟩
  | ok a => exact hk a

/-- Every instruction answers a next state. The three that check something first may raise in it. -/
theorem exec_answers (i : Instr) (s : State) : ∃ t, exec i s = .next t := by
  cases i with
  | call nnn => exact orRaise_answers _ fun _ => ⟨_, rfl⟩
  | ret => exact orRaise_answers _ fun _ => ⟨_, rfl⟩
  | drw x y n =>
    cases hrow : firstRowOutside s n with
    | some a => exact ⟨_, execDrw_of_row_outside x y hrow⟩
    | none => exact ⟨_, execDrw_of_rows_inside x y ((firstRowOutside_eq_none s n).mp hrow)⟩
  | _ => exact ⟨_, rfl⟩

/-- A fetched word is executed, or raised as illegal (spec R55). -/
theorem execWord_answers (w : Word) (s : State) : ∃ t, execWord w s = .next t := by
  unfold execWord
  split
  · exact exec_answers _ s
  · exact ⟨_, raise_next s _⟩

/-- Settles O41: the fetch is a check, and whatever word it reads answers. -/
theorem runningStepAlwaysAnswers : Obligations.RunningStepAlwaysAnswers := fun s hs => by
  rw [step_running s hs]
  exact orRaise_answers _ fun w => execWord_answers w s.advance

/-! ## Load, tick and keys -/

/-- A load that fits writes the program from 0x200 on and nothing else (spec R117). -/
theorem load_of_fits {bytes : List Byte} {s : State} (hwf : Memory.wf s.mem = true) (hfit : bytes.length ≤ 3584) :
    ∃ t, load bytes s = (.ok, t) ∧
      (∀ k (h : k < bytes.length), memRead t (0x200 + k) = .ok bytes[k]) ∧
      (∀ a, a < 0x200 ∨ 0x200 + bytes.length ≤ a → memRead t a = memRead s a) ∧
      t = { s with mem := t.mem } := by
  have hroom : 0x200 + bytes.length ≤ 4096 := by omega
  rcases load_cases bytes s with ⟨_, hload⟩ | ⟨hlong, _⟩
  · refine ⟨_, hload, fun k hk => ?_, fun a ha => ?_, rfl⟩
    · rw [memRead_inside _ (by omega), State.setMem_mem, writeFrom_byte_inside _ _ _ hwf hroom k hk]
    · simp only [memRead, State.setMem_mem, writeFrom_byte_outside _ _ _ hwf hroom a ha]
  · omega

/-- A load that does not fit raises LoadTooLarge and changes nothing (spec R117). -/
theorem load_of_too_long {bytes : List Byte} (s : State) (hlong : 3584 < bytes.length) :
    load bytes s = (.fault (.loadTooLarge bytes.length), s) := by
  rcases load_cases bytes s with ⟨hfit, _⟩ | ⟨_, hload⟩
  · omega
  · exact hload

/-- Settles O49: the two cases of `load`; it is admitted when fresh by definition, and after a step no longer. -/
theorem loadWritesProgramOrRefuses : Obligations.LoadWritesProgramOrRefuses := fun bytes s =>
  ⟨load_of_fits, load_of_too_long s, ⟨_, rfl⟩, fun _ _ _ _ h => by rw [hostOp_step_begun h, hostOp]⟩

/-- Settles O51: both timers by `countDown_toNat`. -/
theorem tickCountsDownClamped : Obligations.TickCountsDownClamped := fun s =>
  ⟨countDown_toNat s.dt, countDown_toNat s.st, rfl⟩

/-- Settles O52: the held keys of the new set by `keyHeld_eq`. -/
theorem setKeysReplacesTheSet : Obligations.SetKeysReplacesTheSet := fun s mask v =>
  ⟨keyHeld_eq (setPressedKeys mask s) v, rfl⟩

end Sys2Proof.Machine

/-! PROOFS. A run stopped at a jump to itself (spec 70_reset_and_hazards). -/

namespace Sys2Proof.Machine

open Sys2Proof

/-! ## The word of a jump -/

theorem fieldsOf_formatNNN_opcode (op : BitVec 4) (nnn : Addr12) : (fieldsOf (formatNNN op nnn)).opcode = op :=
  BitVec.extractLsb'_append_eq_left

theorem fieldsOf_formatNNN_nnn (op : BitVec 4) (nnn : Addr12) : (fieldsOf (formatNNN op nnn)).nnn = nnn :=
  BitVec.extractLsb'_append_eq_right

/-- The word 1NNN is the jump to NNN (spec R59). -/
theorem decodeWord_jp (nnn : Addr12) : decodeWord (formatNNN 0x1 nnn) = .ok (.jp nnn) := by
  simp only [decodeWord, fieldsOf_formatNNN_opcode, fieldsOf_formatNNN_nnn, BitVec.ofNat_eq_ofNat]

/-! ## Stopped runs -/

/-- A state that steps to itself stays, however often it steps. -/
theorem run_of_step_self {M : Host.Core} {s : M.State} (h : M.step s = .next s) (k : Nat) : M.run k s = .next s := by
  induction k with
  | zero => rfl
  | succ k ih => rw [Host.Core.run, h]; exact ih

/-- A jump overwrites pc, so the advance of the fetch leaves no trace (spec R81). -/
theorem exec_jp_advance (nnn : Addr12) (s : State) : exec (.jp nnn) s.advance = .next (s.setPc (zext12 nnn)) := rfl

theorem State.setPc_self (s : State) : s.setPc s.pc = s := rfl

/-- The jump to itself gives pc the value it had (spec R134). -/
theorem step_of_stoppedAt {h : Addr12} {s : State} (hstop : StoppedAt h s) : step s = .next s := by
  obtain ⟨hrunning, hpc, hfetch⟩ := hstop
  rw [step_of_decode hrunning hfetch (decodeWord_jp h), exec_jp_advance, ← hpc, State.setPc_self]

/-- Being stopped depends on the status, pc and memory alone. -/
theorem stoppedAt_congr {h : Addr12} {s t : State} (hstop : StoppedAt h s) (hstatus : t.status = s.status)
    (hpc : t.pc = s.pc) (hmem : t.mem = s.mem) : StoppedAt h t := by
  obtain ⟨hrunning, hat, hfetch⟩ := hstop
  exact ⟨hstatus.trans hrunning, hpc.trans hat, (fetch_congr hmem hpc).trans hfetch⟩

/-- Settles O53: a step from a stopped run answers the same state, so every run does; a tick writes the timers
alone. -/
theorem stoppedRunStaysStopped : Obligations.StoppedRunStaysStopped := fun _ _ hstop =>
  ⟨run_of_step_self (M := core) (step_of_stoppedAt hstop), stoppedAt_congr hstop rfl rfl rfl⟩

end Sys2Proof.Machine

/-! PROOFS. The decoder and the encoder are inverse to each other (spec 30_encoding.md sections 2 to 4), and a word
placed for the next fetch is the one run (log 12). -/

namespace Sys2Proof.Machine

open Sys2Proof

/-! ## The shorter fields are slices of the longer ones (spec R54) -/

section Slices

variable (w : Word)

theorem fieldsOf_x_eq_slice : (fieldsOf w).x = ((fieldsOf w).nnn.extractLsb' 8 4).toFin := by
  simp [fieldsOf]

theorem fieldsOf_nn_eq_slice : (fieldsOf w).nn = (fieldsOf w).nnn.extractLsb' 0 8 := by
  simp [fieldsOf]

theorem fieldsOf_y_eq_slice : (fieldsOf w).y = ((fieldsOf w).nn.extractLsb' 4 4).toFin := by
  simp [fieldsOf]

theorem fieldsOf_n_eq_slice : (fieldsOf w).n = (fieldsOf w).nn.extractLsb' 0 4 := by
  simp [fieldsOf]

end Slices

/-! ## The fields of a word written in a format (spec R57)

Format XNN is format NNN with a register before a byte for its address, and format XYN is format XNN with a register
before a nibble for its byte; so each field is read off by one slice of an append. -/

section Formats

variable (op : BitVec 4) (x y : Reg) (n : BitVec 4) (nn : Byte)

@[simp] theorem fieldsOf_formatXNN_opcode : (fieldsOf (formatXNN op x nn)).opcode = op :=
  fieldsOf_formatNNN_opcode op (BitVec.ofFin (w := 4) x ++ nn)

theorem fieldsOf_formatXNN_nnn : (fieldsOf (formatXNN op x nn)).nnn = BitVec.ofFin (w := 4) x ++ nn :=
  fieldsOf_formatNNN_nnn op (BitVec.ofFin (w := 4) x ++ nn)

@[simp] theorem fieldsOf_formatXNN_x : (fieldsOf (formatXNN op x nn)).x = x := by
  rw [fieldsOf_x_eq_slice, fieldsOf_formatXNN_nnn, BitVec.extractLsb'_append_eq_left]

@[simp] theorem fieldsOf_formatXNN_nn : (fieldsOf (formatXNN op x nn)).nn = nn := by
  rw [fieldsOf_nn_eq_slice, fieldsOf_formatXNN_nnn, BitVec.extractLsb'_append_eq_right]

@[simp] theorem fieldsOf_formatXYN_opcode : (fieldsOf (formatXYN op x y n)).opcode = op :=
  fieldsOf_formatXNN_opcode op x (BitVec.ofFin (w := 4) y ++ n)

@[simp] theorem fieldsOf_formatXYN_x : (fieldsOf (formatXYN op x y n)).x = x :=
  fieldsOf_formatXNN_x op x (BitVec.ofFin (w := 4) y ++ n)

theorem fieldsOf_formatXYN_nn : (fieldsOf (formatXYN op x y n)).nn = BitVec.ofFin (w := 4) y ++ n :=
  fieldsOf_formatXNN_nn op x (BitVec.ofFin (w := 4) y ++ n)

@[simp] theorem fieldsOf_formatXYN_y : (fieldsOf (formatXYN op x y n)).y = y := by
  rw [fieldsOf_y_eq_slice, fieldsOf_formatXYN_nn, BitVec.extractLsb'_append_eq_left]

@[simp] theorem fieldsOf_formatXYN_n : (fieldsOf (formatXYN op x y n)).n = n := by
  rw [fieldsOf_n_eq_slice, fieldsOf_formatXYN_nn, BitVec.extractLsb'_append_eq_right]

end Formats

/-- Settles O3, format by format: the opcode selects the family, the last nibble or byte the instruction within it,
and the operands are read back by the fields of the format. -/
theorem decodeOfEncode : Obligations.DecodeOfEncode := by
  intro i hwf
  cases i with
  | cls | ret => rfl
  | jp nnn | call nnn | ldI nnn | jpV0 nnn =>
    simp [encode, decodeWord, fieldsOf_formatNNN_opcode, fieldsOf_formatNNN_nnn]
  | seImm x nn | sneImm x nn | ldImm x nn | addImm x nn | rnd x nn => simp [encode, decodeWord]
  | seReg x y | sneReg x y => simp [encode, decodeWord]
  | ldReg x y | orReg x y | andReg x y | xorReg x y | addReg x y | sub x y | shr x y | subn x y | shl x y =>
    simp [encode, decodeWord, decodeFamily8]
  | drw x y n =>
    -- the one use of well-formedness: the height fits its nibble
    have hn : n % 16 = n := Nat.mod_eq_of_lt (of_decide_eq_true hwf)
    simp [encode, decodeWord, hn]
  | skp x | sknp x => simp [encode, decodeWord, decodeFamilyE]
  | ldVxDt x | ldDtVx x | ldStVx x => simp [encode, decodeWord, decodeFamilyF]

/-! ## A word is made up again from its opcode and the operands of a format -/

section Reassemble

variable {w : Word} {op : BitVec 4} (hop : (fieldsOf w).opcode = op)
include hop

theorem formatNNN_of_opcode : formatNNN op (fieldsOf w).nnn = w :=
  hop ▸ (slices_join w 0 12 4).trans BitVec.extractLsb'_eq_self

theorem formatXNN_of_opcode : formatXNN op (fieldsOf w).x (fieldsOf w).nn = w :=
  calc formatXNN op (fieldsOf w).x (fieldsOf w).nn
    _ = formatNNN op (w.extractLsb' 8 4 ++ w.extractLsb' 0 8) := rfl
    _ = formatNNN op (fieldsOf w).nnn := congrArg (formatNNN op) (slices_join w 0 8 4)
    _ = w := formatNNN_of_opcode hop

theorem formatXYN_of_opcode : formatXYN op (fieldsOf w).x (fieldsOf w).y (fieldsOf w).n = w :=
  hop ▸ formatXYN_fieldsOf w

end Reassemble

/-! ## The word of what a family decodes to -/

theorem encode_of_decodeFamily0 {w : Word} {i : Instr} (h : decodeFamily0 w = .ok i) :
    i.wellFormed = true ∧ encode i = w := by
  unfold decodeFamily0 at h
  split_ifs at h with hcls hret <;> cases h
  · exact ⟨rfl, hcls.symm⟩
  · exact ⟨rfl, hret.symm⟩

theorem encode_of_decodeFamily8 {f : Fields} {i : Instr} (h : decodeFamily8 f = .ok i) :
    i.wellFormed = true ∧ encode i = formatXYN 0x8 f.x f.y f.n := by
  unfold decodeFamily8 at h
  split at h <;> cases h
  all_goals
    rename_i hn
    simp [hn, Instr.wellFormed, encode]

theorem encode_of_decodeFamilyE {f : Fields} {i : Instr} (h : decodeFamilyE f = .ok i) :
    i.wellFormed = true ∧ encode i = formatXNN 0xE f.x f.nn := by
  unfold decodeFamilyE at h
  split_ifs at h with hskp hsknp <;> cases h
  · exact ⟨rfl, hskp ▸ rfl⟩
  · exact ⟨rfl, hsknp ▸ rfl⟩

theorem encode_of_decodeFamilyF {f : Fields} {i : Instr} (h : decodeFamilyF f = .ok i) :
    i.wellFormed = true ∧ encode i = formatXNN 0xF f.x f.nn := by
  unfold decodeFamilyF at h
  split_ifs at h with hget hdelay hsound <;> cases h
  · exact ⟨rfl, hget ▸ rfl⟩
  · exact ⟨rfl, hdelay ▸ rfl⟩
  · exact ⟨rfl, hsound ▸ rfl⟩

/-- Settles O4, opcode by opcode: a family's lemma gives the word in the family's format, which the fields make up
again. -/
theorem encodeOfDecode : Obligations.EncodeOfDecode := by
  intro w i h
  unfold decodeWord at h
  dsimp only at h
  split at h
  case h_1 => exact encode_of_decodeFamily0 h
  case h_6 hop | h_10 hop =>
    split_ifs at h with hn
    cases h
    have hw := formatXYN_of_opcode hop
    rw [hn] at hw
    exact ⟨rfl, hw⟩
  case h_9 hop => exact formatXYN_of_opcode hop ▸ encode_of_decodeFamily8 h
  case h_14 hop =>
    cases h
    refine ⟨decide_eq_true (fieldsOf w).n.isLt, ?_⟩
    rw [encode, BitVec.ofNat_toNat, BitVec.setWidth_eq]
    exact formatXYN_of_opcode hop
  case h_15 hop => exact formatXNN_of_opcode hop ▸ encode_of_decodeFamilyE h
  case h_16 =>
    have hop : (fieldsOf w).opcode = 0xF#4 := by
      have hlt := (fieldsOf w).opcode.isLt
      simp only [BitVec.toNat_eq, BitVec.toNat_ofNat, imp_false] at *
      omega
    exact formatXNN_of_opcode hop ▸ encode_of_decodeFamilyF h
  case h_2 hop | h_3 hop | h_11 hop | h_12 hop =>
    cases h
    exact ⟨rfl, formatNNN_of_opcode hop⟩
  case h_4 hop | h_5 hop | h_7 hop | h_8 hop | h_13 hop =>
    cases h
    exact ⟨rfl, formatXNN_of_opcode hop⟩

/-! ## A word placed for the next fetch -/

/-- The host's numbering of a row reaches the decoder as the word itself (spec R40). -/
theorem decodeTableWord_eq_some_iff {nbits w : Nat} {i : Instr} :
    decodeTableWord nbits w = some i ↔ decodeWord (tableWord nbits w) = .ok i := by
  simp only [decodeTableWord, decodeBytes, wordOfBytes_bytes]
  cases decodeWord (tableWord nbits w) <;> simp

/-- Settles O10: the next fetch reads the placed word (`fetch_placeWord`), and the step runs what it decodes to. -/
theorem placedWordIsRun : Obligations.PlacedWordIsRun := fun s w _ hwf hs hpc hd =>
  step_of_decode (s := s.withFetchWord 16 w) hs (fetch_placeWord s (tableWord 16 w) hwf hpc)
    (decodeTableWord_eq_some_iff.mp hd)

/-- Settles O1: the decoder evaluates each of the fourteen words. -/
theorem specWordsDecode : Obligations.SpecWordsDecode := by
  unfold Obligations.SpecWordsDecode
  decide

end Sys2Proof.Machine
